-- ==== Sys2Proof/Word.lean ====
section
/-! DEFINITION. The word types of CORE: the byte (`00_scope.md` R6) and the program counter (`10_state.md` R17). -/

namespace Sys2Proof

/-- A byte: an unsigned value 0 to 255, bit 7 the most significant (R6). -/
abbrev Byte := BitVec 8

/-- The program counter: a 9-bit unsigned register (R17, the spec's decision D1). -/
abbrev Pc := BitVec 9

/-- The index of an existing register, R0 to R7 (R11). -/
abbrev RegIndex := Fin 8

end Sys2Proof
end

