-- ==== Sys2Proof/Config.lean ====
section
/-! DEFINITION. The parameters of CORE, with the values `00_scope.md` R5 gives them.
Log 2 (`spPolicy`), 3 (`regReset`), 4 (`memReset`), 5 (`pcInit` and the width), 9 (`prnSeparator`), 17 (unaudited literals). -/

namespace Sys2Proof

/-- The two values of `SP_POLICY` (`45_stack_push_pop.md` R116): refuse a stack pointer that would pass a
boundary, or let it wrap modulo 256. -/
inductive SpPolicy where
  | fault
  | wrap
  deriving DecidableEq, Repr

namespace Config

/-- `MEM_SIZE`: 256 cells, addresses 0 to 255. -/
abbrev memSize : Nat := 256

/-- `NUM_REGS`: eight registers, indices 0 to 7. -/
abbrev numRegs : Nat := 8

/-- `SP_INDEX`: the stack pointer is register 7. -/
abbrev spIndex : RegIndex := 7

/-- `SP_INIT`: 0xF4, also the base of the stack that `SP_POLICY = fault` tests on POP (R116). -/
abbrev spInit : Byte := 0xF4

/-- `PC_INIT`: 0. -/
abbrev pcInit : Pc := 0

/-- `REG_RESET`: the reset value of R0 to R6. DESIGN CHOICE (the spec's decision D3; the source gives none), unsafe, log 3. -/
def regReset : Byte := 0x00

/-- `MEM_RESET`: the reset value of every memory cell, and what an unlisted address of `Memory` reads as.
DESIGN CHOICE (the spec's decision D4; the source gives none), unsafe, log 4. -/
def memReset : Byte := 0x00

/-- `SP_POLICY` of the machine that `step` runs: the default `fault` (R116).
DESIGN CHOICE (the spec's decision D5; the source leaves it open), safe, log 2. -/
abbrev spPolicy : SpPolicy := .fault

/-- `PRN_SEPARATOR`: a line feed after each numeral of the text rendering (`43_prn.md` R101).
DESIGN CHOICE (the spec's decision D11), outside the step, log 9. -/
abbrev prnSeparator : Char := '\n'

/-- The bound of `70_reset_and_hazards.md` R165 on the cycles of a run. -/
abbrev maxCycles : Nat := 128

end Config
end Sys2Proof
end

