-- ==== Sys2Proof/Machine/State.lean ====
section
/-! DEFINITION. The architectural state `(M, x, pc, halted, fault, out)` of `10_state.md` R10, its reset values
(R27), the fault record of R21 and R130, and the reasons an operation can stop. -/

namespace Sys2Proof.Machine

/-- The memory array `M` of `20_memory.md` R30: the cells that differ from `Config.memReset`, addresses
strictly rising. -/
abbrev Memory := List Host.Cell

/-- What an OutOfBoundsAccess was an access to (`60_exceptions.md` R130). -/
inductive Space where
  /-- A memory address. -/
  | mem
  /-- A register index. -/
  | reg
  /-- The stack pointer's value, under `SP_POLICY = fault`. -/
  | stack
  deriving DecidableEq, Repr

/-- An ALU operation selector (`44_mul_alu.md` R106): the closed enumeration's one member, or a value outside
it. No instruction makes one outside it (R107); how a selector is encoded is not specified, so a value outside is
only numbered (DESIGN CHOICE, safe, log 12). -/
inductive AluSelector where
  | mul
  | other (code : Nat)
  deriving DecidableEq, Repr

/-- The kind of a fault with its payload `info` (`60_exceptions.md` R130). ProgramTooLarge is not among them:
it is never latched (R134). -/
inductive Cause where
  /-- A memory address, a register index or a stack-pointer value outside its range (R131). -/
  | outOfBoundsAccess (space : Space) (index : Nat)
  /-- An opcode byte that matches no entry of the table (R132). -/
  | illegalInstruction (op : Byte)
  /-- An ALU selector outside the enumeration (R133); no program causes it. -/
  | unsupportedOperation (sel : AluSelector)
  deriving DecidableEq, Repr

/-- The fault record `(kind, at_pc, info)` of `10_state.md` R21; `cause` is the kind with its `info`. -/
structure FaultRecord where
  cause : Cause
  atPc : Pc
  deriving DecidableEq, Repr

/-- The reasons an operation stops with no next state. A fatal error of a CYCLE is none of them: it is latched in
`State.fault`, which is a next state (R137; log 1), so neither `step` nor `exec` answers a `Fault`. -/
inductive Fault where
  /-- Raised by the host operation `load` for a program of more than 256 bytes, before any execution (R134, R162).
  Safe: nothing is changed and no machine state results. -/
  | programTooLarge
  deriving DecidableEq, Repr

/-- The reasons an operation is refused. -/
inductive Refusal where
  /-- Raised by an arm of `exec` for an instruction without a meaning; no arm does so. Safe: no state results. -/
  | notModelled (mnemonic : String)
  /-- Raised by the host operation `load` on a machine that was loaded before or on which a cycle has run, which
  the spec leaves undefined (`70_reset_and_hazards.md` R162, D12; log 11). Safe: no state results. -/
  | loadNotFresh
  deriving DecidableEq, Repr

/-- The whole architectural state (R10). -/
structure State where
  /-- `M`. -/
  mem : Memory
  /-- `x[0]` to `x[7]`; `x[7]` is the stack pointer (R11, R12). -/
  regs : Vector Byte 8
  /-- The address of the next opcode byte, 0 to 256 (R16, R17). -/
  pc : Pc
  /-- The halted flag (R20). -/
  halted : Bool
  /-- The fault latch (R21). -/
  fault : Option FaultRecord
  /-- The bytes emitted by PRN, oldest first (R25). -/
  out : List Byte
  deriving DecidableEq, Repr

/-- The state after construction (R27): pc, SP and the Running status are the source's values; the other
registers and the memory hold the spec's decisions D3 and D4 (logs 3 and 4). -/
def State.reset : State where
  mem := []
  regs := #v[Config.regReset, Config.regReset, Config.regReset, Config.regReset,
             Config.regReset, Config.regReset, Config.regReset, Config.spInit]
  pc := Config.pcInit
  halted := false
  fault := none
  out := []

end Sys2Proof.Machine
end

