-- ==== Sys2Proof/Machine/Ops.lean ====
section
/-! DEFINITION. The named operations over memory, registers, the output sink, the program counter and the fault
latch: the primitives of `00_scope.md` R7. TAKING A FAULT is `State.raise`; there is no return from one
(`60_exceptions.md` R138). -/

namespace Sys2Proof.Machine

/-! ### Memory (`20_memory.md` R30 to R34) -/

/-- `M[a]`: the byte at an address; an unlisted address holds `Config.memReset`. -/
def Memory.read : Memory → Nat → Byte
  | [], _ => Config.memReset
  | (k, v) :: rest, a => if k = a then v else Memory.read rest a

/-- Puts a cell in its place among rising addresses; a cell that holds `Config.memReset` is not listed. -/
def Memory.insertCell : Memory → Nat → Byte → Memory
  | [], a, v => if v = Config.memReset then [] else [(a, v)]
  | (k, w) :: rest, a, v =>
    if a < k then (if v = Config.memReset then (k, w) :: rest else (a, v) :: (k, w) :: rest)
    else (k, w) :: Memory.insertCell rest a v

/-- `M[a] <- v`: the old cell, if listed, gives way to the new one. -/
def Memory.write (m : Memory) (a : Nat) (v : Byte) : Memory :=
  Memory.insertCell (m.filter fun c => c.1 != a) a v

/-- The canonical form: addresses below `MEM_SIZE`, strictly rising, and no cell equal to what an unlisted
address reads as. -/
def Memory.wf : Memory → Bool
  | [] => true
  | (k, v) :: rest =>
    decide (k < Config.memSize) && v != Config.memReset && rest.all (fun c => decide (k < c.1)) && Memory.wf rest

/-- `MemRead(addr, 1)` (R32). -/
def State.memRead (s : State) (addr : Nat) : Except Cause Byte :=
  if addr < Config.memSize then .ok (s.mem.read addr) else .error (.outOfBoundsAccess .mem addr)

/-- `M[addr] <- v` in an existing cell. -/
def State.storeByte (s : State) (addr : Nat) (v : Byte) : State := { s with mem := s.mem.write addr v }

/-- `MemWrite(addr, 1, v)` (R33): the value is reduced to a byte. -/
def State.memWrite (s : State) (addr v : Nat) : Except Cause State :=
  if addr < Config.memSize then .ok (s.storeByte addr (BitVec.ofNat 8 v))
  else .error (.outOfBoundsAccess .mem addr)

/-! ### Registers (`10_state.md` R11 to R14) -/

/-- The byte in an existing register. -/
def State.getReg (s : State) (r : RegIndex) : Byte := s.regs[r]

/-- Stores a byte in an existing register; no register is hard-wired (R11). -/
def State.setReg (s : State) (r : RegIndex) (v : Byte) : State := { s with regs := s.regs.set r v }

/-- The stack pointer is register 7 (R12, R115). -/
def State.sp (s : State) : Byte := s.getReg Config.spIndex

/-- Moves the stack pointer. -/
def State.setSp (s : State) (v : Byte) : State := s.setReg Config.spIndex v

/-- The index check of the register contract (R13): the index is not masked. -/
def regIndex (i : Nat) : Except Cause RegIndex :=
  if h : i < Config.numRegs then .ok ⟨i, h⟩ else .error (.outOfBoundsAccess .reg i)

/-- The checked register read `x[i]` (R13). -/
def State.readReg (s : State) (i : Nat) : Except Cause Byte := do
  let r ← regIndex i
  return s.getReg r

/-- The checked register write `x[i] <- v` (R13, R14): the value is reduced to a byte. -/
def State.writeReg (s : State) (i v : Nat) : Except Cause State := do
  let r ← regIndex i
  return s.setReg r (BitVec.ofNat 8 v)

/-! ### Output, program counter, fault latch -/

/-- `emit(v)`: appends to the output sequence; it never fails (R25, `43_prn.md` R100). -/
def State.emit (s : State) (v : Byte) : State := { s with out := s.out ++ [v] }

/-- `pc <- pc + len` (`40_fetch_decode_dispatch.md` R75). A completing cycle starts at `pc ≤ 253`, so the 9-bit
sum never wraps (R72, R75; log 5). -/
def State.advancePc (s : State) (len : Nat) : State := { s with pc := s.pc + BitVec.ofNat 9 len }

/-- TAKING A FAULT, `raise Kind(info)` (`60_exceptions.md` R137): the latch records the cause and the pc of the
faulting instruction, and no other state changes. There is no handler address, no saved pc and no mode. -/
def State.raise (s : State) (c : Cause) : State := { s with fault := some ⟨c, s.pc⟩ }

/-- How an `Exec` arm of `40_fetch_decode_dispatch.md` R78 ends, begun in state `s`: with its effect complete the
pc advances by the instruction's length (R75); with a cause raised nothing but the latch changes (R76, R137). Both
are next states. -/
def State.retire (s : State) (len : Nat) (effect : Except Cause State) : Host.Outcome State Fault Refusal :=
  match effect with
  | .ok t => .next (t.advancePc len)
  | .error c => .next (s.raise c)

/-- Stores bytes at consecutive ascending addresses, one `MemWrite` after another. -/
def State.memWriteBytes (s : State) (addr : Nat) : List Nat → Except Cause State
  | [] => .ok s
  | v :: rest => do
    let t ← s.memWrite addr v
    t.memWriteBytes (addr + 1) rest

end Sys2Proof.Machine
end

