-- ==== Sys2Proof/Machine/Operands.lean ====
section
/-! DEFINITION. The operand forms of `30_encoding.md` R54, and the one memory-addressing mode: register-relative
through the stack pointer, with the checks of `SP_POLICY` (`45_stack_push_pop.md` R115, R116). -/

namespace Sys2Proof.Machine

/-- A register operand used as a source: the whole byte is the index (R54). -/
def State.readOperand (s : State) (a : Byte) : Except Cause Byte := s.readReg a.toNat

/-- A register operand used as a destination (R54). -/
def State.writeOperand (s : State) (a : Byte) (v : Byte) : Except Cause State := s.writeReg a.toNat v.toNat

/-- The index check of a register operand alone, made before any write (R76, R136). -/
def checkOperand (a : Byte) : Except Cause Unit := do
  let _ ← regIndex a.toNat
  return ()

/-- PUSH's stack-pointer check (R116): under `fault`, a stack pointer of 0 would pass below address 0. -/
def checkPush (policy : SpPolicy) (sp : Byte) : Except Cause Unit :=
  if policy = .fault ∧ sp = 0x00 then .error (.outOfBoundsAccess .stack sp.toNat) else .ok ()

/-- POP's stack-pointer check (R116): under `fault`, a stack pointer of 0xF4 or above would pass its initial
value. -/
def checkPop (policy : SpPolicy) (sp : Byte) : Except Cause Unit :=
  if policy = .fault ∧ Config.spInit.toNat ≤ sp.toNat then .error (.outOfBoundsAccess .stack sp.toNat) else .ok ()

/-- The pre-decrement `(s - 1) mod 256` (`44_mul_alu.md` R109); also PUSH's effective address (R115). -/
def decrement (sp : Byte) : Byte := sp - 1

/-- The post-increment `(s + 1) mod 256` (R109). -/
def increment (sp : Byte) : Byte := sp + 1

end Sys2Proof.Machine
end

