-- ==== Sys2Proof/Machine/Alu.lean ====
section
/-! DEFINITION. The ALU, a pure function (`44_mul_alu.md` R105 to R107), and MUL (R108). -/

namespace Sys2Proof.Machine

/-- `ALU(op, a, b)`: `(a * b) mod 256` for the one member of the enumeration (R106); any other selector raises
UnsupportedOperation (R107). -/
def alu (sel : AluSelector) (a b : Byte) : Except Cause Byte :=
  match sel with
  | .mul => .ok (BitVec.ofNat 8 (a.toNat * b.toNat))
  | .other code => .error (.unsupportedOperation (.other code))

/-- `Exec_MUL(a, b)`: `operand_a` is checked first, both reads precede the write (R108, R136). -/
def mulEffect (a b : Byte) (s : State) : Except Cause State := do
  let va ← s.readOperand a
  let vb ← s.readOperand b
  let v ← alu .mul va vb
  s.writeOperand a v

/-- MUL. -/
def execMul (a b : Byte) (s : State) : Host.Outcome State Fault Refusal := s.retire 3 (mulEffect a b s)

end Sys2Proof.Machine
end

