-- ==== Sys2Proof/Machine/Flags.lean ====
section
/-! DEFINITION. The machine's only flag, `halted` (`41_hlt.md` R90), and the status that is a function of it and of
the fault latch (`10_state.md` R22). There are no condition flags (R23). -/

namespace Sys2Proof.Machine

/-- The machine status (R22). -/
inductive Status where
  | running
  | halted
  | faulted
  deriving DecidableEq, Repr

/-- Faulted when the latch is set, otherwise Halted when the flag is set, otherwise Running (R22). -/
def State.status (s : State) : Status :=
  match s.fault with
  | some _ => .faulted
  | none => if s.halted then .halted else .running

/-- `halted <- true` (R20); nothing ever clears the flag. -/
def State.setHalted (s : State) : State := { s with halted := true }

end Sys2Proof.Machine
end

