-- ==== Sys2Proof/Machine/Halt.lean ====
section
/-! DEFINITION. HLT (`41_hlt.md` R90). -/

namespace Sys2Proof.Machine

/-- `Exec_HLT`: sets the halted flag, raises nothing; the pc advances by 1 in the same cycle. -/
def execHlt (s : State) : Host.Outcome State Fault Refusal := s.retire 1 (.ok s.setHalted)

end Sys2Proof.Machine
end

