-- ==== Sys2Proof/Machine/Load.lean ====
section
/-! DEFINITION. LDI (`42_ldi.md` R95). -/

namespace Sys2Proof.Machine

/-- `Exec_LDI(a, b)`: `x[a] <- b`. R7 is a destination like any other, with no stack-pointer check. -/
def execLdi (a imm : Byte) (s : State) : Host.Outcome State Fault Refusal := s.retire 3 (s.writeOperand a imm)

end Sys2Proof.Machine
end

