-- ==== Sys2Proof/Machine/Output.lean ====
section
/-! DEFINITION. PRN (`43_prn.md` R100). -/

namespace Sys2Proof.Machine

/-- `Exec_PRN(a)`: `emit(x[a])`. -/
def prnEffect (a : Byte) (s : State) : Except Cause State := do
  let v ← s.readOperand a
  return s.emit v

/-- PRN: one value per executed instruction. -/
def execPrn (a : Byte) (s : State) : Host.Outcome State Fault Refusal := s.retire 2 (prnEffect a s)

end Sys2Proof.Machine
end

