-- ==== Sys2Proof/Machine/Stack.lean ====
section
/-! DEFINITION. PUSH and POP under either stack-pointer policy (`45_stack_push_pop.md` R116 to R118), and under the
machine's own. With the named register R7 the written order of effects is followed (the spec's decision D10, log 7):
PUSH reads after the decrement, POP increments what it loaded. -/

namespace Sys2Proof.Machine

/-- `Exec_PUSH(a)`: the index check, the stack-pointer check, the decrement, the read, the store. -/
def pushEffect (policy : SpPolicy) (a : Byte) (s : State) : Except Cause State := do
  checkOperand a
  checkPush policy s.sp
  let t := s.setSp (decrement s.sp)
  let v ← t.readOperand a
  t.memWrite (decrement s.sp).toNat v.toNat

/-- `Exec_POP(a)`: the index check, the stack-pointer check, the load, then the increment of the stack pointer as it
now stands. -/
def popEffect (policy : SpPolicy) (a : Byte) (s : State) : Except Cause State := do
  checkOperand a
  checkPop policy s.sp
  let v ← s.memRead s.sp.toNat
  let t ← s.writeOperand a v
  return t.setSp (increment t.sp)

/-- PUSH under a given policy. -/
def execPushUnder (policy : SpPolicy) (a : Byte) (s : State) : Host.Outcome State Fault Refusal :=
  s.retire 2 (pushEffect policy a s)

/-- POP under a given policy. -/
def execPopUnder (policy : SpPolicy) (a : Byte) (s : State) : Host.Outcome State Fault Refusal :=
  s.retire 2 (popEffect policy a s)

/-- PUSH. -/
def execPush (a : Byte) (s : State) : Host.Outcome State Fault Refusal := execPushUnder Config.spPolicy a s

/-- POP. -/
def execPop (a : Byte) (s : State) : Host.Outcome State Fault Refusal := execPopUnder Config.spPolicy a s

end Sys2Proof.Machine
end

