-- ==== Sys2Proof/Syntax.lean ====
section
/-! DEFINITION. The six instructions of `30_encoding.md` R52, the whole set.
An operand is the whole byte that follows the opcode (R54): a register operand of 8 to 255 is a legal
encoding whose execution raises OutOfBoundsAccess, so it is an `Instr` like any other (log 13). -/

namespace Sys2Proof

/-- One constructor per row of `opcode_table.json`. -/
inductive Instr where
  /-- `HLT` (R90). -/
  | hlt
  /-- `LDI Ra, imm` (R95). -/
  | ldi (a imm : Byte)
  /-- `PRN Ra` (R100). -/
  | prn (a : Byte)
  /-- `MUL Ra, Rb` (R108). -/
  | mul (a b : Byte)
  /-- `PUSH Ra` (R117). -/
  | push (a : Byte)
  /-- `POP Ra` (R118). -/
  | pop (a : Byte)
  deriving DecidableEq, Repr

end Sys2Proof
end

