-- ==== Sys2Proof/Decode.lean ====
section
/-! DEFINITION. The opcode map, the decoder and the encoder (`30_encoding.md` R50 to R58,
`40_fetch_decode_dispatch.md` R73, R74, R77), and the instruction the decoder reads from a word of
`opcode_table.json`. The opcode byte is compared whole; no bit of it has a meaning of its own (R53). -/

namespace Sys2Proof

/-- The six mnemonics (`00_scope.md` R9). -/
inductive Mnemonic where
  | hlt
  | ldi
  | prn
  | mul
  | push
  | pop
  deriving DecidableEq, Repr

/-- Why a list of bytes is no instruction. -/
inductive DecodeError where
  /-- The opcode byte matches no entry of the table (R55, R74). -/
  | illegalInstruction (op : Byte)
  /-- The list ends before the instruction does; never the case for the three bytes a cycle fetches. -/
  | truncated
  deriving DecidableEq, Repr

/-- The opcode map of R52 read by opcode: the first part of `Decode(op)` of R77. -/
def decodeOpcode (op : Byte) : Option Mnemonic :=
  if op = 0x01 then some .hlt
  else if op = 0x82 then some .ldi
  else if op = 0x47 then some .prn
  else if op = 0xA2 then some .mul
  else if op = 0x45 then some .push
  else if op = 0x46 then some .pop
  else none

/-- The column "Length = PC advance" of R52: the second part of `Decode(op)` of R77. -/
def lengthOf : Mnemonic → Nat
  | .hlt => 1
  | .ldi => 3
  | .prn => 2
  | .mul => 3
  | .push => 2
  | .pop => 2

/-- The opcode map of R52 read by mnemonic. -/
def opcodeOf : Mnemonic → Byte
  | .hlt => 0x01
  | .ldi => 0x82
  | .prn => 0x47
  | .mul => 0xA2
  | .push => 0x45
  | .pop => 0x46

/-- The mnemonic of an instruction. -/
def mnemonicOf : Instr → Mnemonic
  | .hlt => .hlt
  | .ldi _ _ => .ldi
  | .prn _ => .prn
  | .mul _ _ => .mul
  | .push _ => .push
  | .pop _ => .pop

/-- The length of an instruction in bytes, which is its PC advance (R50, R52). -/
def instrLength (i : Instr) : Nat := lengthOf (mnemonicOf i)

/-- Format F1 (R51): one operand byte after the opcode. -/
def oneOperand (make : Byte → Instr) : List Byte → Except DecodeError (Instr × List Byte)
  | a :: rest => .ok (make a, rest)
  | [] => .error .truncated

/-- Format F2 (R51): two operand bytes after the opcode. -/
def twoOperands (make : Byte → Byte → Instr) : List Byte → Except DecodeError (Instr × List Byte)
  | a :: b :: rest => .ok (make a b, rest)
  | _ => .error .truncated

/-- The operand bytes of an instruction whose opcode named `m`, in ascending address order (R51, R54). -/
def decodeOperands (m : Mnemonic) (bytes : List Byte) : Except DecodeError (Instr × List Byte) :=
  match m with
  | .hlt => .ok (.hlt, bytes)
  | .ldi => twoOperands .ldi bytes
  | .prn => oneOperand .prn bytes
  | .mul => twoOperands .mul bytes
  | .push => oneOperand .push bytes
  | .pop => oneOperand .pop bytes

/-- One instruction from the front of a list of bytes, with the bytes that follow it. -/
def decodeBytes : List Byte → Except DecodeError (Instr × List Byte)
  | [] => .error .truncated
  | op :: rest =>
    match decodeOpcode op with
    | none => .error (.illegalInstruction op)
    | some m => decodeOperands m rest

/-- The instruction in the three bytes a cycle fetches; `none` for an unknown opcode. Bytes beyond the
instruction's own length are ignored (R56). -/
def decodeFetched (op a b : Byte) : Option Instr :=
  match decodeBytes [op, a, b] with
  | .ok (i, _) => some i
  | .error _ => none

/-- The bytes of an instruction at ascending addresses (R51, R58). -/
def encode : Instr → List Byte
  | .hlt => [0x01]
  | .ldi a imm => [0x82, a, imm]
  | .prn a => [0x47, a]
  | .mul a b => [0xA2, a, b]
  | .push a => [0x45, a]
  | .pop a => [0x46, a]

/-- Byte `k` of a word: bits `8k+7` down to `8k`. -/
def byteOfWord (w k : Nat) : Byte := BitVec.ofNat 8 (w / 2 ^ (8 * k))

/-- The three bytes a cycle would fetch for a word of the opcode table whose low `nbits` bits are given:
the first byte is bits 7 to 0, each later byte counts on from it, every bit above `nbits` is 0. -/
def tableBytes (nbits w : Nat) : Byte × Byte × Byte :=
  let v := w % 2 ^ nbits
  (byteOfWord v 0, byteOfWord v 1, byteOfWord v 2)

/-- The instruction the decoder reads from a word of the opcode table. -/
def decodeTableWord (nbits w : Nat) : Option Instr :=
  let (op, a, b) := tableBytes nbits w
  decodeFetched op a b

end Sys2Proof
end

