-- ==== Sys2Proof/Machine/Fetch.lean ====
section
/-! DEFINITION. The fetch_decode_unit and the cycle around a dispatcher (`40_fetch_decode_dispatch.md` R70 to R78). -/

namespace Sys2Proof.Machine

/-- Steps 1 and 2 (R71, R72): the opcode byte and, whatever it is, the two bytes after it, each read checked and in
ascending order; the sums do not wrap. The strict read-ahead is the spec's decision D2 (log 6). -/
def State.fetchBytes (s : State) : Except Cause (Byte × Byte × Byte) := do
  let op ← s.memRead s.pc.toNat
  let a ← s.memRead (s.pc.toNat + 1)
  let b ← s.memRead (s.pc.toNat + 2)
  return (op, a, b)

/-- Step 3's lookup (R73, R74): an unknown opcode raises IllegalInstruction, after both read-aheads. -/
def State.fetchInstr (s : State) : Except Cause Instr := do
  let (op, a, b) ← s.fetchBytes
  match decodeFetched op a b with
  | some i => return i
  | none => .error (.illegalInstruction op)

/-- `Cycle()` (R78) with a given dispatcher. -/
def State.cycle (s : State) (dispatch : Instr → State → Host.Outcome State Fault Refusal) :
    Host.Outcome State Fault Refusal :=
  match s.fetchInstr with
  | .ok i => dispatch i s
  | .error c => .next (s.raise c)

/-- `step()` with a given dispatcher (R70, `70_reset_and_hazards.md` R163): one cycle in status Running, and nothing
at all in status Halted or Faulted. -/
def State.stepWith (s : State) (dispatch : Instr → State → Host.Outcome State Fault Refusal) :
    Host.Outcome State Fault Refusal :=
  match s.status with
  | .running => s.cycle dispatch
  | .halted => .next s
  | .faulted => .next s

/-- `M[a] <- v` where the cell exists, and nothing where it does not. -/
def State.placeByte (s : State) (addr : Nat) (v : Byte) : State :=
  match s.memWrite addr v.toNat with
  | .ok t => t
  | .error _ => s

/-- The three bytes that the next cycle fetches, placed at `pc`, `pc+1` and `pc+2`. -/
def State.placeFetched (s : State) (op a b : Byte) : State :=
  ((s.placeByte s.pc.toNat op).placeByte (s.pc.toNat + 1) a).placeByte (s.pc.toNat + 2) b

end Sys2Proof.Machine
end

