-- ==== Sys2Proof/Machine/Step.lean ====
section
/-! DEFINITION. One step of the machine (`40_fetch_decode_dispatch.md` R70, R78; `70_reset_and_hazards.md` R163), and
an instruction placed where the next step fetches it. -/

namespace Sys2Proof.Machine

/-- The host operation `step()`: one whole cycle, or nothing in a terminal status. -/
def step (s : State) : Host.Outcome State Fault Refusal := s.stepWith exec

/-- `s` with an instruction's bytes in the three cells the next cycle reads. It stands for the host's load of a program
whose bytes these are (R162; log 10); in status Running with `pc ≤ 253` the very next step runs the instruction. -/
def State.withFetchWord (s : State) (nbits w : Nat) : State :=
  let (op, a, b) := tableBytes nbits w
  s.placeFetched op a b

end Sys2Proof.Machine
end

