-- ==== Sys2Proof/Machine/HostOps.lean ====
section
/-! DEFINITION. The host interface: construction, `load`, `step`, `run` (`70_reset_and_hazards.md` R160 to R166).
The host acts only between cycles and writes no state but through these (R161). -/

namespace Sys2Proof.Machine

/-- How far a machine's life has gone, for `load`'s precondition (R162, D12). It is the host's knowledge, not machine
state (log 11). -/
inductive Stage where
  /-- Constructed: no load made, no cycle run. -/
  | constructed
  /-- A load has been made, no cycle run. -/
  | loaded
  /-- `step` or `run` has been called. -/
  | started
  deriving DecidableEq, Repr

/-- A machine with its stage. -/
structure Session where
  machine : State
  stage : Stage
  deriving DecidableEq, Repr

/-- What `step` and `run` return: the status, with the fault record if there is one (R163, R164). -/
structure Report where
  status : Status
  fault : Option FaultRecord
  deriving DecidableEq, Repr

/-- The report on a state: its status and its latched record. R164 gives the record to `run` whenever the status is Faulted.
DESIGN CHOICE (log 18), unsafe: `step` on an already Faulted machine reports the record latched before, too, where R163
gives a record only 'if the cycle raised one' and no cycle runs. -/
def reportOf (s : State) : Report := ⟨s.status, s.fault⟩

/-- Construction of the machine, which is reset (R160). -/
def hostConstruct : Session := ⟨State.reset, .constructed⟩

/-- `load` on the machine itself (R162): the bytes go to addresses 0 upward, each reduced to a byte, and no other state
changes; more than 256 are ProgramTooLarge. -/
def loadProgram (s : State) (bytes : List Nat) : Host.Outcome State Fault Refusal :=
  if Config.memSize < bytes.length then .fault .programTooLarge
  else
    match s.memWriteBytes 0 bytes with
    | .ok t => .next t
    | .error _ => .fault .programTooLarge

/-- `load(bytes)` (R162): once, on a machine on which no cycle has run. A load that fails has changed nothing, so the
machine is as fresh as before (log 11). -/
def hostLoad (h : Session) (bytes : List Nat) : Host.Outcome Session Fault Refusal :=
  match h.stage with
  | .constructed =>
    match loadProgram h.machine bytes with
    | .next t => .next ⟨t, .loaded⟩
    | .fault r => .fault r
    | .refused r => .refused r
  | .loaded => .refused .loadNotFresh
  | .started => .refused .loadNotFresh

/-- The session and the report after machine steps that ended in `o`. -/
def hostReturn (o : Host.Outcome State Fault Refusal) : Host.Outcome (Session × Report) Fault Refusal :=
  match o with
  | .next t => .next (⟨t, .started⟩, reportOf t)
  | .fault r => .fault r
  | .refused r => .refused r

/-- `step()` (R163). What it returns beside the status on an already Faulted machine is the model's choice (log 18). -/
def hostStep (h : Session) : Host.Outcome (Session × Report) Fault Refusal := hostReturn (step h.machine)

/-- `run()` (R164): repeated `step`; no run needs more than `Config.maxCycles` of them (R165), and a step in a terminal
status changes nothing. -/
def hostRun (h : Session) : Host.Outcome (Session × Report) Fault Refusal :=
  hostReturn (Host.Core.run core Config.maxCycles h.machine)

end Sys2Proof.Machine
end

