-- ==== Sys2Proof/Machine/ProgramText.lean ====
section
/-! DEFINITION. The loader's text format (`30_encoding.md` R57), as far as the spec settles it. The format is outside
CORE (`00_scope.md` R4 a); what it leaves unsettled (U19, N9) is refused, but for two sorts of line that log 15 names. -/

namespace Sys2Proof.Machine

/-- What one line of program text gives. -/
inductive TextLine where
  /-- A base-2 literal of 1 to 8 digits: one byte. -/
  | byte (v : Nat)
  /-- Blank, a comment only, or with no digit 0 or 1 at all: it fails to parse, is skipped without error and consumes
  no address. DESIGN CHOICE (log 15), unsafe: that a line of other characters only fails to parse; R57 leaves digits
  other than 0 and 1 open. -/
  | skipped
  /-- A token the spec says nothing about: longer than 8 digits, or 0 and 1 mixed with other characters, a blank before
  or inside it among them. -/
  | unsettled
  deriving DecidableEq, Repr

/-- A space or a tab. -/
def isBlank (c : Char) : Bool := c == ' ' || c == '\t'

/-- A base-2 digit. -/
def isBinaryDigit (c : Char) : Bool := c == '0' || c == '1'

/-- The non-comment part of a line, without its trailing blanks. Before a comment R57's own example leaves such blanks.
DESIGN CHOICE (log 15), unsafe: they are dropped on a line with NO comment too, where R57, N9 and U19 leave surrounding
white space open. -/
def codeOfLine (line : List Char) : List Char :=
  ((line.takeWhile (· != '#')).reverse.dropWhile isBlank).reverse

/-- The value of a base-2 literal, most significant digit first. -/
def binaryValue (digits : List Char) : Nat := digits.foldl (fun n c => 2 * n + (if c = '1' then 1 else 0)) 0

/-- One line of program text (R57). -/
def readLine (line : List Char) : TextLine :=
  let code := codeOfLine line
  if !code.any isBinaryDigit then .skipped
  else if code.all isBinaryDigit && decide (code.length ≤ 8) then .byte (binaryValue code)
  else .unsettled

/-- The byte sequence of a program text; `none` where a line is unsettled. -/
def readProgram : List (List Char) → Option (List Nat)
  | [] => some []
  | line :: rest =>
    match readLine line with
    | .byte v => (readProgram rest).map (v :: ·)
    | .skipped => readProgram rest
    | .unsettled => none

end Sys2Proof.Machine
end

