-- ==== Sys2Proof/Machine/Sink.lean ====
section
/-! DEFINITION. The text rendering of the output sequence (`43_prn.md` R101): the sink's business, outside the step.
The separator is the spec's decision D11 (log 9). -/

namespace Sys2Proof.Machine

/-- A decimal digit 0 to 9 as a character. -/
def digitChar (d : Nat) : Char := Char.ofNat ('0'.toNat + d)

/-- The decimal numeral of a byte: no sign, no leading zeros, no padding (R101). -/
def decimalOf (v : Byte) : List Char :=
  let n := v.toNat
  if n < 10 then [digitChar n]
  else if n < 100 then [digitChar (n / 10), digitChar (n % 10)]
  else [digitChar (n / 100), digitChar (n / 10 % 10), digitChar (n % 10)]

/-- The text stream of an output sequence: each numeral followed by `PRN_SEPARATOR`. -/
def textOf : List Byte → List Char
  | [] => []
  | v :: rest => decimalOf v ++ Config.prnSeparator :: textOf rest

end Sys2Proof.Machine
end

