-- ==== Sys2Proof/Machine/Policy.lean ====
section
/-! DEFINITION. The whole machine under either value of `SP_POLICY` (`45_stack_push_pop.md` R116, the parameter D5
leaves for a model to take as an argument; log 2). `step` is the machine under `Config.spPolicy`. -/

namespace Sys2Proof.Machine

/-- The dispatcher under a policy; only PUSH and POP depend on it. -/
def execUnder (policy : SpPolicy) (i : Instr) (s : State) : Host.Outcome State Fault Refusal :=
  match i with
  | .hlt => execHlt s
  | .ldi a imm => execLdi a imm s
  | .prn a => execPrn a s
  | .mul a b => execMul a b s
  | .push a => execPushUnder policy a s
  | .pop a => execPopUnder policy a s

/-- One step of the machine under a policy. -/
def stepUnder (policy : SpPolicy) (s : State) : Host.Outcome State Fault Refusal := s.stepWith (execUnder policy)

end Sys2Proof.Machine
end

