-- ==== Sys2Proof/WellFormed.lean ====
section
/-! DEFINITION. Well-formed instructions: every register operand names one of R0 to R7 (`30_encoding.md` R54,
the "legal" column of `opcode_table.json`). An ill-formed one still decodes and still executes: it raises
OutOfBoundsAccess (`10_state.md` R13). The immediate of LDI is legal at every value (R54). -/

namespace Sys2Proof

/-- The operand byte names an existing register. -/
def isRegister (a : Byte) : Bool := decide (a.toNat < Config.numRegs)

/-- Every register operand of the instruction names an existing register. -/
def Instr.wellFormed : Instr → Bool
  | .hlt => true
  | .ldi a _ => isRegister a
  | .prn a => isRegister a
  | .mul a b => isRegister a && isRegister b
  | .push a => isRegister a
  | .pop a => isRegister a

end Sys2Proof
end

