-- ==== Sys2Proof/Safety.lean ====
section
/-! DEFINITION. The terms that statements about CORE use: the machine's invariant, what a state leaves unchanged of
another, and which registers an instruction reads and writes (`10_state.md` R15). -/

namespace Sys2Proof.Machine

/-! ### What is unchanged -/

/-- Every byte of memory reads as before. -/
def SameMemory (s t : State) : Prop := ∀ a, t.mem.read a = s.mem.read a

/-- Every byte of memory reads as before but the one at `addr`. -/
def SameMemoryBut (addr : Nat) (s t : State) : Prop := ∀ a, a ≠ addr → t.mem.read a = s.mem.read a

/-- Every register keeps its value but those whose indices are listed. -/
def SameRegsBut (rs : List Nat) (s t : State) : Prop := ∀ r : RegIndex, r.val ∉ rs → t.getReg r = s.getReg r

/-- The halted flag, the fault latch and the output keep their values. -/
def SameControl (s t : State) : Prop := t.halted = s.halted ∧ t.fault = s.fault ∧ t.out = s.out

/-! ### Registers read and written (R15) -/

/-- The column "Registers read" of R15's table. -/
def registersRead : Instr → List Nat
  | .hlt => []
  | .ldi _ _ => []
  | .prn a => [a.toNat]
  | .mul a b => [a.toNat, b.toNat]
  | .push a => [7, a.toNat]
  | .pop _ => [7]

/-- The column "Registers written" of R15's table. -/
def registersWritten : Instr → List Nat
  | .hlt => []
  | .ldi a _ => [a.toNat]
  | .prn _ => []
  | .mul a _ => [a.toNat]
  | .push _ => [7]
  | .pop a => [a.toNat, 7]

/-- The address an instruction stores to: PUSH's decremented stack pointer (`45_stack_push_pop.md` R117), and none for
every other instruction (`20_memory.md` R31). -/
def storeAddress (i : Instr) (s : State) : Option Nat :=
  match i with
  | .push _ => some (decrement s.sp).toNat
  | .hlt => none
  | .ldi _ _ => none
  | .prn _ => none
  | .mul _ _ => none
  | .pop _ => none

/-- The stack pointer passes the policy's check of the instruction (`45_stack_push_pop.md` R116); true of every
instruction but PUSH and POP. -/
def stackAllows (policy : SpPolicy) (i : Instr) (s : State) : Prop :=
  match i with
  | .push _ => policy = .fault → 0 < s.sp.toNat
  | .pop _ => policy = .fault → s.sp.toNat < 0xF4
  | .hlt => True
  | .ldi _ _ => True
  | .prn _ => True
  | .mul _ _ => True

/-- The instruction that the next cycle fetches, when its three bytes exist and its opcode is known. -/
def State.nextInstr (s : State) : Option Instr :=
  if s.pc.toNat ≤ 253 then
    decodeFetched (s.mem.read s.pc.toNat) (s.mem.read (s.pc.toNat + 1)) (s.mem.read (s.pc.toNat + 2))
  else none

/-! ### The invariant -/

/-- The cause is one that R131 to R133 allow a cycle begun in this state to raise. -/
def State.mayRaise (s : State) : Cause → Bool
  | .outOfBoundsAccess .mem n => n == 256 && decide (254 ≤ s.pc.toNat)
  | .outOfBoundsAccess .reg n => decide (s.pc.toNat ≤ 253) && decide (8 ≤ n) && decide (n ≤ 255)
  | .outOfBoundsAccess .stack n =>
    decide (s.pc.toNat ≤ 253) && n == s.sp.toNat && (n == 0 || decide (0xF4 ≤ n))
  | .illegalInstruction op =>
    decide (s.pc.toNat ≤ 253) && op == s.mem.read s.pc.toNat && (decodeOpcode op).isNone
  | .unsupportedOperation _ => false

/-- A halted machine is not faulted, and its pc stands just after the HLT that halted it (R22, R90). -/
def State.haltConsistent (s : State) : Bool :=
  !s.halted ||
    (s.fault.isNone && decide (1 ≤ s.pc.toNat) && decide (s.pc.toNat ≤ 254) && s.mem.read (s.pc.toNat - 1) == 0x01)

/-- A faulted machine's pc is still the faulting instruction's, and the state still shows why it faulted
(R137: faults are precise). -/
def State.latchConsistent (s : State) : Bool :=
  match s.fault with
  | none => true
  | some r => r.atPc == s.pc && s.mayRaise r.cause

/-- The invariant of CORE: canonical memory (R30), the pc in 0 to 256 (R17), never both halted and faulted (R22), and
precise halting and faulting (R90, R137). -/
abbrev State.Inv (s : State) : Prop :=
  s.mem.wf = true ∧ s.pc.toNat ≤ 256 ∧ s.haltConsistent = true ∧ s.latchConsistent = true

/-- A run that ended by HLT and not by a fault. -/
abbrev State.CleanHalt (s : State) : Prop := s.status = .halted

end Sys2Proof.Machine
end

