-- ==== Sys2Proof/Certificates/Slice0/Obligations.lean ====
section
/-! DEFINITION. The statements for the provers, each from a numbered rule of spec/ or from the section it names.
Where a statement rests on a decision the spec marks as its own, its docstring names the decision and the log entry.
None of them speaks of a test program. -/

open Sys2Proof Sys2Proof.Machine

/-! ### Encoding and decoding -/

/-- `30_encoding.md` section 2 and R58: a word written out from the encoding of each row decodes to its instruction, and
two bytes outside the table to none. -/
def Obligations.SpecWordsDecodeAsTheTableSays : Prop :=
  decodeTableWord 8 0x01 = some .hlt ∧
  decodeTableWord 24 0x080082 = some (.ldi 0x00 0x08) ∧
  decodeTableWord 16 0x0547 = some (.prn 0x05) ∧
  decodeTableWord 24 0x0100A2 = some (.mul 0x00 0x01) ∧
  decodeTableWord 16 0x0745 = some (.push 0x07) ∧
  decodeTableWord 16 0x0146 = some (.pop 0x01) ∧
  decodeTableWord 8 0x00 = none ∧
  decodeTableWord 8 0xFF = none

/-- R77: the opcode map with its lengths, and nothing else in it. -/
def Obligations.OpcodeMapIsTheSixRows : Prop :=
  ∀ (op : Byte) (m : Mnemonic) (len : Nat), (decodeOpcode op = some m ∧ lengthOf m = len) ↔
    (op, m, len) ∈ [((0x01 : Byte), Mnemonic.hlt, 1), (0x82, .ldi, 3), (0x47, .prn, 2), (0xA2, .mul, 3),
      (0x45, .push, 2), (0x46, .pop, 2)]

/-- R50, R51, R52, R58: the decoder reads from the front of a list of bytes exactly the instruction whose encoding stands
there, every operand byte at every value, and leaves exactly the bytes after it. -/
def Obligations.DecodeAndEncodeAgree : Prop :=
  ∀ (bytes : List Byte) (i : Instr) (rest : List Byte), decodeBytes bytes = .ok (i, rest) ↔ bytes = encode i ++ rest

/-- `30_encoding.md` sections 3 and 4: of the three fetched bytes an instruction uses its own and ignores the rest; 250
opcode bytes are illegal; no operand byte makes a legal opcode illegal. -/
def Obligations.FetchedBytesDecodeByOwnLength : Prop :=
  (∀ (op a b : Byte) (i : Instr), decodeFetched op a b = some i ↔
    ∃ ignored, [op, a, b] = encode i ++ ignored) ∧
  (∀ op a b a' b' : Byte, decodeFetched op a b = none → decodeFetched op a' b' = none) ∧
  ((List.range 256).filter fun n => (decodeOpcode (BitVec.ofNat 8 n)).isNone).length = 250

/-! ### The instructions, each completing -/

/-- `41_hlt.md`: HLT sets the halted flag, advances the pc by 1 and changes nothing else. -/
def Obligations.HltSetsTheHaltedFlag : Prop :=
  ∀ s : State, ∃ t, exec .hlt s = .next t ∧ t.halted = true ∧ t.pc = s.pc + 1 ∧
    (∀ r, t.getReg r = s.getReg r) ∧ SameMemory s t ∧ t.fault = s.fault ∧ t.out = s.out

/-- `42_ldi.md`: LDI writes the immediate into the register its operand names, R7 like any other, advances the pc by 3
and changes nothing else. -/
def Obligations.LdiWritesTheImmediate : Prop :=
  ∀ (a imm : Byte) (s : State) (h : a.toNat < 8), ∃ t, exec (.ldi a imm) s = .next t ∧
    t.getReg ⟨a.toNat, h⟩ = imm ∧ t.pc = s.pc + 3 ∧
    SameRegsBut [a.toNat] s t ∧ SameMemory s t ∧ SameControl s t

/-- `43_prn.md`: PRN appends the register's value to the output, advances the pc by 2 and changes nothing else. -/
def Obligations.PrnEmitsTheRegister : Prop :=
  ∀ (a : Byte) (s : State) (h : a.toNat < 8), ∃ t, exec (.prn a) s = .next t ∧
    t.out = s.out ++ [s.getReg ⟨a.toNat, h⟩] ∧ t.pc = s.pc + 2 ∧
    (∀ r, t.getReg r = s.getReg r) ∧ SameMemory s t ∧ t.halted = s.halted ∧ t.fault = s.fault

/-- `44_mul_alu.md` section 2: MUL leaves the low byte of the exact product in its first register, both read before the
write (so also when they are one register), advances the pc by 3 and changes nothing else. -/
def Obligations.MulKeepsTheLowByte : Prop :=
  ∀ (a b : Byte) (s : State) (ha : a.toNat < 8) (hb : b.toNat < 8), ∃ t, exec (.mul a b) s = .next t ∧
    (t.getReg ⟨a.toNat, ha⟩).toNat =
      ((s.getReg ⟨a.toNat, ha⟩).toNat * (s.getReg ⟨b.toNat, hb⟩).toNat) % 256 ∧
    t.pc = s.pc + 3 ∧ SameRegsBut [a.toNat] s t ∧ SameMemory s t ∧ SameControl s t

/-- `45_stack_push_pop.md` section 2, a register other than R7: PUSH decrements the stack pointer and stores the register
at the new top, advances the pc by 2 and changes nothing else. The condition on the stack pointer is that of
`SP_POLICY = fault`, the spec's decision D5 (log 2). -/
def Obligations.PushStoresTheNamedRegister : Prop :=
  ∀ (a : Byte) (s : State) (h : a.toNat < 8), a.toNat ≠ 7 → s.sp ≠ 0x00 → ∃ t, exec (.push a) s = .next t ∧
    t.sp = s.sp - 1 ∧ t.mem.read (decrement s.sp).toNat = s.getReg ⟨a.toNat, h⟩ ∧ t.pc = s.pc + 2 ∧
    SameRegsBut [7] s t ∧ SameMemoryBut (decrement s.sp).toNat s t ∧ SameControl s t

/-- `45_stack_push_pop.md` section 2, corner (a): PUSH R7 stores the decremented stack pointer. The value stored is the
spec's decision D10 (log 7). -/
def Obligations.PushOfStackPointerStoresDecremented : Prop :=
  ∀ s : State, s.sp ≠ 0x00 → ∃ t, exec (.push 0x07) s = .next t ∧
    t.sp = s.sp - 1 ∧ t.mem.read (decrement s.sp).toNat = s.sp - 1 ∧ t.pc = s.pc + 2 ∧
    SameRegsBut [7] s t ∧ SameMemoryBut (decrement s.sp).toNat s t ∧ SameControl s t

/-- `45_stack_push_pop.md` section 3, a register other than R7: POP loads the register from the top of the stack and
increments the stack pointer, advances the pc by 2 and changes nothing else, memory included. The condition on the stack
pointer is that of `SP_POLICY = fault`, the spec's decision D5 (log 2). -/
def Obligations.PopLoadsTheNamedRegister : Prop :=
  ∀ (a : Byte) (s : State) (h : a.toNat < 8), a.toNat ≠ 7 → s.sp.toNat < 0xF4 → ∃ t, exec (.pop a) s = .next t ∧
    t.getReg ⟨a.toNat, h⟩ = s.mem.read s.sp.toNat ∧ t.sp.toNat = s.sp.toNat + 1 ∧ t.pc = s.pc + 2 ∧
    SameRegsBut [a.toNat, 7] s t ∧ SameMemory s t ∧ SameControl s t

/-- `45_stack_push_pop.md` section 3, corner (a): POP R7 leaves the loaded byte plus one, modulo 256, in R7. The value is
the spec's decision D10 (log 7). -/
def Obligations.PopIntoStackPointerIncrementsLoaded : Prop :=
  ∀ s : State, s.sp.toNat < 0xF4 → ∃ t, exec (.pop 0x07) s = .next t ∧
    t.sp.toNat = ((s.mem.read s.sp.toNat).toNat + 1) % 256 ∧ t.pc = s.pc + 2 ∧
    SameRegsBut [7] s t ∧ SameMemory s t ∧ SameControl s t

/-- `44_mul_alu.md` section 1: the ALU is the multiplication modulo 256 and refuses every other selector. How a selector
outside the enumeration is written is the model's choice (log 12). -/
def Obligations.AluMultipliesOrRefuses : Prop :=
  ∀ a b : Byte, (∃ v, alu .mul a b = .ok v ∧ v.toNat = (a.toNat * b.toNat) % 256 ∧ v = a * b) ∧
    ∀ code, alu (.other code) a b = .error (.unsupportedOperation (.other code))

/-! ### The instructions, where they fault -/

/-- `10_state.md` section 2 and `60_exceptions.md` section 3: a register operand above 7 faults with its whole byte as the
index, the first operand before the second and the index before the stack pointer; only the latch changes. The latch, the
payload and the order are the spec's decisions D6, D8 and D9 (logs 1 and 8). -/
def Obligations.RegisterOperandOutOfRangeFaults : Prop :=
  ∀ (a b : Byte) (s : State),
    (8 ≤ a.toNat →
      (∀ i, i = .ldi a b ∨ i = .prn a ∨ i = .mul a b ∨ i = .push a ∨ i = .pop a →
        exec i s = .next { s with fault := some ⟨.outOfBoundsAccess .reg a.toNat, s.pc⟩ })) ∧
    (a.toNat < 8 → 8 ≤ b.toNat →
      exec (.mul a b) s = .next { s with fault := some ⟨.outOfBoundsAccess .reg b.toNat, s.pc⟩ })

/-- `45_stack_push_pop.md` section 1, `SP_POLICY = fault` (the spec's decision D5, log 2): PUSH at 0x00 and POP at 0xF4 or
above fault with the stack pointer's value and change only the latch. -/
def Obligations.StackPointerBoundariesFault : Prop :=
  ∀ (a : Byte) (s : State), a.toNat < 8 →
    (s.sp = 0x00 → exec (.push a) s = .next { s with fault := some ⟨.outOfBoundsAccess .stack 0, s.pc⟩ }) ∧
    (0xF4 ≤ s.sp.toNat →
      exec (.pop a) s = .next { s with fault := some ⟨.outOfBoundsAccess .stack s.sp.toNat, s.pc⟩ })

/-- Every instruction completes exactly when its register operands exist and the policy allows its use of the stack
pointer, and otherwise changes only the latch; under either policy (the spec's decisions D5, D6, D7; logs 1, 2, 8). -/
def Obligations.CompletesExactlyWhenChecksPass : Prop :=
  ∀ (policy : SpPolicy) (i : Instr) (s : State),
    ((i.wellFormed = true ∧ stackAllows policy i s) →
      ∃ t, execUnder policy i s = .next t ∧ t.pc = s.pc + BitVec.ofNat 9 (instrLength i) ∧ t.fault = s.fault) ∧
    (¬(i.wellFormed = true ∧ stackAllows policy i s) →
      ∃ space n, execUnder policy i s =
        .next { s with fault := some ⟨.outOfBoundsAccess space n, s.pc⟩ } ∧ (space = .reg ∨ space = .stack))

/-! ### Frames -/

/-- `10_state.md` R15 (column "Registers written"), `20_memory.md` R31: what each of the six instructions leaves unchanged
in every next state, a completing or a faulting one; `10_state.md` R20: only HLT writes the halted flag. The last clause,
that a fault writes only the latch, at its pc, so that a refused POP writes no register, is `40_fetch_decode_dispatch.md`
R76 and `60_exceptions.md` R137, which rest on the spec's decisions D6 (the latch, log 1) and D7 (checks before writes,
log 8). -/
def Obligations.EveryInstructionFrame : Prop :=
  ∀ (i : Instr) (s t : State), exec i s = .next t →
    SameRegsBut (registersWritten i) s t ∧
    (∀ addr, storeAddress i s ≠ some addr → t.mem.read addr = s.mem.read addr) ∧
    (i ≠ .hlt → t.halted = s.halted) ∧
    ((∀ a, i ≠ .prn a) → t.out = s.out) ∧
    (t.fault = s.fault ∨ ∃ c, t = { s with fault := some ⟨c, s.pc⟩ })

/-- `10_state.md` R15 (column "Registers read"): the value of a register an instruction does not read has no effect on
anything the instruction writes. -/
def Obligations.UnreadRegistersHaveNoInfluence : Prop :=
  ∀ (i : Instr) (s t : State) (r : RegIndex) (v : Byte), r.val ∉ registersRead i → exec i s = .next t →
    ∃ u, exec i (s.setReg r v) = .next u ∧
      u.mem = t.mem ∧ u.pc = t.pc ∧ u.halted = t.halted ∧ u.fault = t.fault ∧ u.out = t.out ∧
      (∀ q, q ≠ r → u.getReg q = t.getReg q) ∧ (u.getReg r = t.getReg r ∨ u.getReg r = v)

/-! ### The cycle -/

/-- `40_fetch_decode_dispatch.md` section 4: in status Running, when the three bytes at the pc exist and decode to an
instruction, a step is exactly `exec` of it: nothing is done around `exec`, which advances the pc itself. -/
def Obligations.StepRunsTheDecodedInstruction : Prop :=
  ∀ (s : State) (i : Instr), s.status = .running → s.pc.toNat ≤ 253 →
    decodeFetched (s.mem.read s.pc.toNat) (s.mem.read (s.pc.toNat + 1)) (s.mem.read (s.pc.toNat + 2)) = some i →
    step s = exec i s

/-- R70: a cycle runs in status Running and in no other. -/
def Obligations.CyclesRunOnlyWhileRunning : Prop :=
  ∀ s : State, (s.status = .running → step s = s.cycle exec) ∧
    (s.status = .halted → step s = .next s) ∧ (s.status = .faulted → step s = .next s)

/-- `40_fetch_decode_dispatch.md` section 2 and R136: a fetch or read-ahead past address 255 faults whatever the bytes
are, an unknown opcode among them, and only the latch changes. The strict read-ahead and the 9-bit pc are the spec's
decisions D2 and D1 (logs 6 and 5), the latch D6 (log 1). -/
def Obligations.FetchPastTheEndFaults : Prop :=
  ∀ s : State, s.status = .running → 254 ≤ s.pc.toNat →
    step s = .next { s with fault := some ⟨.outOfBoundsAccess .mem (max 256 s.pc.toNat), s.pc⟩ }

/-- `40_fetch_decode_dispatch.md` section 3: an opcode byte that is none of the six faults with the byte and the pc, and
only the latch changes (the latch is the spec's decision D6, log 1). -/
def Obligations.UnknownOpcodeFaults : Prop :=
  ∀ s : State, s.status = .running → s.pc.toNat ≤ 253 →
    s.mem.read s.pc.toNat ∉ [(0x01 : Byte), 0x82, 0x47, 0xA2, 0x45, 0x46] →
    step s = .next { s with fault := some ⟨.illegalInstruction (s.mem.read s.pc.toNat), s.pc⟩ }

/-- R18: how far each instruction advances the pc, that a faulting cycle does not advance it, and that an instruction may
start at any address 0 to 253. -/
def Obligations.PcAdvancesByTheLength : Prop :=
  (∀ (s t : State) (i : Instr), s.status = .running → s.nextInstr = some i → step s = .next t → t.fault = none →
    t.pc.toNat = s.pc.toNat +
      (match i with
        | .hlt => 1
        | .prn _ => 2
        | .push _ => 2
        | .pop _ => 2
        | .ldi _ _ => 3
        | .mul _ _ => 3)) ∧
  (∀ s t : State, s.status = .running → step s = .next t → t.fault ≠ none → t.pc = s.pc) ∧
  (∀ s : State, s.pc.toNat ≤ 253 → ∃ bytes, s.fetchBytes = .ok bytes)

/-- `60_exceptions.md` sections 1 and 4: a cycle that faults changes nothing but the latch, records its own pc, and has one
of the causes that R131 to R133 list for that state, UnsupportedOperation never among them (decisions D6, D7, D8; logs 1
and 8). -/
def Obligations.FaultingCycleIsPrecise : Prop :=
  ∀ s t : State, s.pc.toNat ≤ 256 → s.status = .running → step s = .next t → t.fault ≠ none →
    ∃ c, t = { s with fault := some ⟨c, s.pc⟩ } ∧ s.mayRaise c = true

/-- R138: a faulted machine runs no further cycle, however often it is stepped, and its latch is never overwritten. -/
def Obligations.FaultIsFinal : Prop :=
  ∀ (s : State) (r : FaultRecord) (n : Nat), s.fault = some r → Host.Core.run core n s = .next s

/-- R20: the halted flag is false after reset, is set only by HLT, stops the loop, is never unset, and no instruction
reads it. -/
def Obligations.HaltedFlagIsSetOnlyByHlt : Prop :=
  State.reset.halted = false ∧
  (∀ s t : State, step s = .next t → s.halted = false → t.halted = true → s.nextInstr = some .hlt) ∧
  (∀ (s : State) (n : Nat), s.halted = true → Host.Core.run core n s = .next s) ∧
  (∀ (i : Instr) (s t : State) (b : Bool), exec i s = .next t →
    ∃ u, exec i { s with halted := b } = .next u ∧ { u with halted := t.halted } = t)

/-- `60_exceptions.md` section 4 and `70_reset_and_hazards.md` section 2: under either policy a step of any machine state
answers a next state, since a fault of a cycle is latched (the spec's decisions D6 and D13, log 1). -/
def Obligations.StepAlwaysAnswersNext : Prop :=
  ∀ s : State, (∃ t, step s = .next t) ∧ ∀ policy, ∃ t, stepUnder policy s = .next t

/-- `20_memory.md` R31 and R42: a step changes a byte of memory only when it runs a PUSH, and only the byte below the
stack pointer. -/
def Obligations.MemoryChangesOnlyByPush : Prop :=
  ∀ (s t : State) (addr : Nat), step s = .next t → t.mem.read addr ≠ s.mem.read addr →
    ∃ a, s.nextInstr = some (.push a) ∧ a.toNat < 8 ∧ addr = (decrement s.sp).toNat ∧ t.sp = decrement s.sp

/-- `10_state.md` R25 and `43_prn.md`: the output only grows, by one byte a step at most, and only when the step runs a
PRN, by the register that it names. -/
def Obligations.OutputGrowsOnlyByPrn : Prop :=
  ∀ s t : State, step s = .next t → t.out = s.out ∨
    ∃ (a : Byte) (h : a.toNat < 8), s.nextInstr = some (.prn a) ∧ t.out = s.out ++ [s.getReg ⟨a.toNat, h⟩]

/-- `20_memory.md` section 6: a byte pushed just after the PUSH itself is the opcode that the very next cycle fetches. For
R7 the byte is the decremented stack pointer, the spec's decision D10 (log 7). -/
def Obligations.PushedByteIsFetchedNext : Prop :=
  ∀ (a : Byte) (s : State) (h : a.toNat < 8), s.pc.toNat ≤ 251 → s.sp.toNat = s.pc.toNat + 3 →
    ∃ t x y, exec (.push a) s = .next t ∧ t.pc.toNat = s.pc.toNat + 2 ∧
      t.fetchBytes = .ok (if a.toNat = 7 then decrement s.sp else s.getReg ⟨a.toNat, h⟩, x, y)

/-! ### The stack -/

/-- R119 under either policy: PUSH then POP of one register, R7 too, restores every register, leaves the pushed byte in
its cell and changes no other byte. Under `fault` the domain is 0x01 to 0xF4 (the spec's decisions D5 and D10; logs 2
and 7). -/
def Obligations.PushThenPopRestoresRegisters : Prop :=
  ∀ (policy : SpPolicy) (a : Byte) (s : State), a.toNat < 8 →
    (policy = .fault → 0x01 ≤ s.sp.toNat ∧ s.sp.toNat ≤ 0xF4) →
    ∃ t u, execUnder policy (.push a) s = .next t ∧ execUnder policy (.pop a) t = .next u ∧
      u.regs = s.regs ∧ u.pc = s.pc + 4 ∧ SameMemoryBut (decrement s.sp).toNat s u ∧ SameControl s u

/-- `45_stack_push_pop.md` section 1, `SP_POLICY = wrap`: PUSH and POP of every register complete at every stack pointer,
with arithmetic modulo 256, so that PUSH at 0x00 stores at 0xFF and POP at 0xFF leaves 0x00. The results for R7 are the
spec's decision D10 (log 7). -/
def Obligations.WrapPolicyWrapsModulo256 : Prop :=
  ∀ (a : Byte) (s : State) (h : a.toNat < 8),
    (∃ t, execUnder .wrap (.push a) s = .next t ∧ t.sp.toNat = (s.sp.toNat + 255) % 256 ∧
      t.mem.read ((s.sp.toNat + 255) % 256) = (if a.toNat = 7 then decrement s.sp else s.getReg ⟨a.toNat, h⟩) ∧
      t.pc = s.pc + 2 ∧ SameRegsBut [7] s t ∧ SameMemoryBut ((s.sp.toNat + 255) % 256) s t ∧ SameControl s t) ∧
    (∃ t, execUnder .wrap (.pop a) s = .next t ∧
      (a.toNat ≠ 7 → t.getReg ⟨a.toNat, h⟩ = s.mem.read s.sp.toNat ∧ t.sp.toNat = (s.sp.toNat + 1) % 256) ∧
      (a.toNat = 7 → t.sp.toNat = ((s.mem.read s.sp.toNat).toNat + 1) % 256) ∧
      t.pc = s.pc + 2 ∧ SameRegsBut [a.toNat, 7] s t ∧ SameMemory s t ∧ SameControl s t)

/-- `92_eei_decisions.md` D5: the machine under `fault` does what the machine under `wrap` does, or faults on its stack
pointer. -/
def Obligations.FaultPolicyAgreesUnlessItFaults : Prop :=
  ∀ s : State, step s = stepUnder .wrap s ∨
    (s.status = .running ∧
      step s = .next { s with fault := some ⟨.outOfBoundsAccess .stack s.sp.toNat, s.pc⟩ })

/-! ### Invariants and runs -/

/-- The invariant `State.Inv` is kept by every step: memory canonical, pc in 0 to 256 (R17, decision D1), never halted and
faulted at once (R22), halted just after a HLT (R90), faults precise (R137, decisions D6 and D7; logs 1, 5, 8). -/
def Obligations.StepKeepsTheInvariant : Prop :=
  ∀ s t : State, s.Inv → step s = .next t → t.Inv

/-- The invariant holds at reset. -/
def Obligations.ResetMeetsTheInvariant : Prop := State.reset.Inv

/-- R165: whatever the memory, the registers and the pc, 128 steps end in status Halted or Faulted (the bound depends on
the spec's decision D2, log 6). -/
def Obligations.EveryRunEndsWithin128Cycles : Prop :=
  ∀ s : State, ∃ t, Host.Core.run core 128 s = .next t ∧ t.status ≠ .running

/-! ### Reset -/

/-- `10_state.md` section 6, the values that are the source's: pc 0, the stack pointer 0xF4, not halted, status Running,
the first opcode fetched from address 0. -/
def Obligations.ResetHasTheSourceValues : Prop :=
  State.reset.pc = 0 ∧ State.reset.sp = 0xF4 ∧ State.reset.halted = false ∧ State.reset.status = .running

/-- `10_state.md` section 6, the values that are the spec's own decisions D3, D4, D6 and D11 (logs 3, 4, 1 and 9): R0 to R6
and all of memory 0x00, the latch and the output empty, so that a machine with nothing loaded faults on opcode 0x00. -/
def Obligations.ResetHasTheDecidedValues : Prop :=
  (∀ r : RegIndex, r ≠ 7 → State.reset.getReg r = 0x00) ∧ (∀ a, State.reset.mem.read a = 0x00) ∧
  State.reset.fault = none ∧ State.reset.out = [] ∧
  step State.reset = .next { State.reset with fault := some ⟨.illegalInstruction 0x00, 0⟩ }

/-! ### Memory as data -/

/-- Two canonical memories that read alike are the same list of cells, so that equality of states is equality of what they
hold (the model's own representation of `20_memory.md` R30). -/
def Obligations.CanonicalMemoriesAreExtensional : Prop :=
  ∀ m m' : Memory, m.wf = true → m'.wf = true → (∀ a, m.read a = m'.read a) → m = m'

/-! ### Host operations -/

/-- `70_reset_and_hazards.md` section 2: `load` on a constructed machine writes the bytes, reduced modulo 256, to addresses
0 upward and changes nothing else; more than 256 bytes are ProgramTooLarge; a second load, or one after a step, is refused
(decision D12, log 11). -/
def Obligations.LoadPlacesTheProgram : Prop :=
  (∀ bytes : List Nat, bytes.length ≤ 256 → ∃ t, hostLoad hostConstruct bytes = .next ⟨t, .loaded⟩ ∧
    (∀ (k : Nat) (h : k < bytes.length), (t.mem.read k).toNat = bytes[k] % 256) ∧
    (∀ k, bytes.length ≤ k → t.mem.read k = State.reset.mem.read k) ∧
    t = { State.reset with mem := t.mem } ∧ t.mem.wf = true) ∧
  (∀ bytes : List Nat, 256 < bytes.length → hostLoad hostConstruct bytes = .fault .programTooLarge) ∧
  (∀ (h : Session) (bytes : List Nat), h.stage ≠ .constructed → hostLoad h bytes = .refused .loadNotFresh)

/-- `70_reset_and_hazards.md` R163 and R164: `run` is repeated `step`, returns when the status is no longer Running, and
reports that status with the latched record (the spec's decision D6, log 1). The bound of 128 steps is R165's and depends
on the spec's decision D2 (log 6); the stage `started` is the model's own bookkeeping beside the machine (log 11). -/
def Obligations.RunIsRepeatedStep : Prop :=
  ∀ h : Session, ∃ t, hostRun h = .next (⟨t, .started⟩, ⟨t.status, t.fault⟩) ∧ t.status ≠ .running ∧
    ∃ n, n ≤ 128 ∧ Host.Core.run core n h.machine = .next t ∧
      ∀ (k : Nat) (u : State), k < n → Host.Core.run core k h.machine = .next u → u.status = .running

/-- The model's placing of a table word (log 10): in a Running state with its three bytes in memory, the very next step
runs exactly the instruction the word decodes to, on a state that differs only in those bytes. -/
def Obligations.PlacedWordIsRunNext : Prop :=
  ∀ (s : State) (nbits w : Nat) (i : Instr), s.status = .running → s.pc.toNat ≤ 253 → decodeTableWord nbits w = some i →
    step (s.withFetchWord nbits w) = exec i (s.withFetchWord nbits w) ∧
    s.withFetchWord nbits w = { s with mem := (s.withFetchWord nbits w).mem } ∧
    ∀ a, a < s.pc.toNat ∨ s.pc.toNat + 2 < a → (s.withFetchWord nbits w).mem.read a = s.mem.read a

/-- `43_prn.md` section on the text rendering: the numeral of every byte is its unpadded decimal numeral, and a text is the
numerals in order, each followed by a line feed, and nothing else: the empty output has the empty text (the separator is
the spec's decision D11, log 9). -/
def Obligations.BytesRenderAsDecimalNumerals : Prop :=
  (∀ n, n < 256 → decimalOf (BitVec.ofNat 8 n) = Nat.toDigits 10 n) ∧ textOf [] = [] ∧
  ∀ (v : Byte) (rest : List Byte), textOf (v :: rest) = decimalOf v ++ ['\n'] ++ textOf rest

/-- `30_encoding.md` section 5: the text form of a base-2 literal of eight digits followed by a comment gives that byte,
a comment line gives none, and a literal of nine digits is left unsettled (log 15). -/
def Obligations.ProgramTextLinesRead : Prop :=
  readLine "10000010   # LDI".toList = .byte 0x82 ∧ readLine "00001000".toList = .byte 8 ∧
  readLine "# only a comment 1".toList = .skipped ∧ readLine "".toList = .skipped ∧
  readLine "100000101".toList = .unsettled
end

