-- ==== Sys2Proof/Laws/Decode.lean ====
section
/-! SUPPORT. What the opcode lookup answers. -/

namespace Sys2Proof

/-- Opcode and mnemonic determine each other. -/
theorem decodeOpcode_eq_some {op : Byte} {m : Mnemonic} : decodeOpcode op = some m ↔ op = opcodeOf m := by
  constructor
  · intro h
    unfold decodeOpcode at h
    repeat' split at h
    all_goals first | (cases h; assumption) | cases h
  · rintro rfl
    cases m <;> rfl

/-- An opcode is unknown exactly when it is none of the six. -/
theorem decodeOpcode_eq_none {op : Byte} : decodeOpcode op = none ↔ ∀ m, op ≠ opcodeOf m := by
  rw [← not_iff_not, not_forall]
  simp only [not_not, ← decodeOpcode_eq_some]
  cases decodeOpcode op <;> simp

/-- The three fetched bytes give no instruction exactly when the opcode is unknown. -/
theorem decodeFetched_eq_none {op a b : Byte} : decodeFetched op a b = none ↔ decodeOpcode op = none := by
  cases h : decodeOpcode op with
  | none => simp [decodeFetched, decodeBytes, h]
  | some m => cases m <;> simp [decodeFetched, decodeBytes, decodeOperands, oneOperand, twoOperands, h]

end Sys2Proof
end

