-- ==== Sys2Proof/Laws/Memory.lean ====
section
/-! SUPPORT. Memory: what a read gives after a write (on any list of cells), and that every memory operation keeps the
canonical form `Memory.wf`. -/

namespace Sys2Proof.Machine

/-! ### Read after write -/

theorem Memory.read_insertCell_self (m : Memory) (a : Nat) (v : Byte) (h : ∀ c ∈ m, c.1 ≠ a) :
    (Memory.insertCell m a v).read a = v := by
  induction m with
  | nil => by_cases hv : v = Config.memReset <;> simp [Memory.insertCell, Memory.read, hv]
  | cons c rest ih =>
    obtain ⟨k, w⟩ := c
    have hk : k ≠ a := h (k, w) (by simp)
    have hrest : ∀ c ∈ rest, c.1 ≠ a := fun c hc => h c (List.mem_cons_of_mem _ hc)
    have hread : Memory.read rest a = Config.memReset := by
      clear ih h
      induction rest with
      | nil => rfl
      | cons d tl ih =>
        simp only [Memory.read, if_neg (hrest d (by simp))]
        exact ih fun c hc => hrest c (List.mem_cons_of_mem _ hc)
    by_cases hlt : a < k
    · by_cases hv : v = Config.memReset
      · simp [Memory.insertCell, Memory.read, hlt, hv, hk, hread]
      · simp [Memory.insertCell, Memory.read, hlt, hv]
    · simp [Memory.insertCell, Memory.read, hlt, hk, ih hrest]

theorem Memory.read_insertCell_ne (m : Memory) {a b : Nat} (v : Byte) (h : b ≠ a) :
    (Memory.insertCell m a v).read b = m.read b := by
  induction m with
  | nil => by_cases hv : v = Config.memReset <;> simp [Memory.insertCell, Memory.read, hv, Ne.symm h]
  | cons c rest ih =>
    obtain ⟨k, w⟩ := c
    by_cases hlt : a < k
    · by_cases hv : v = Config.memReset <;> simp [Memory.insertCell, Memory.read, hlt, hv, Ne.symm h]
    · simp [Memory.insertCell, Memory.read, hlt, ih]

theorem Memory.read_filter_ne (m : Memory) {a b : Nat} (h : b ≠ a) :
    Memory.read (m.filter fun c => c.1 != a) b = m.read b := by
  induction m with
  | nil => rfl
  | cons c rest ih =>
    obtain ⟨k, w⟩ := c
    by_cases hk : k = a
    · subst hk
      simpa [Memory.read, Ne.symm h] using ih
    · have hp : (fun c : Host.Cell => c.1 != a) (k, w) = true := by simpa using hk
      rw [List.filter_cons_of_pos (p := fun c : Host.Cell => c.1 != a) hp]
      simp only [Memory.read, ih]

@[simp] theorem Memory.read_write_self (m : Memory) (a : Nat) (v : Byte) : (m.write a v).read a = v :=
  Memory.read_insertCell_self _ a v (by simp)

@[simp] theorem Memory.read_write_ne (m : Memory) {a b : Nat} (v : Byte) (h : b ≠ a) :
    (m.write a v).read b = m.read b := by
  rw [Memory.write, Memory.read_insertCell_ne _ _ h, Memory.read_filter_ne _ h]

theorem Memory.read_write (m : Memory) (a b : Nat) (v : Byte) :
    (m.write a v).read b = if b = a then v else m.read b := by
  split
  · subst b; simp
  · simp [*]

/-! ### The canonical form -/

theorem Memory.wf_cons {k : Nat} {v : Byte} {rest : Memory} :
    Memory.wf ((k, v) :: rest) = true ↔
      k < Config.memSize ∧ v ≠ Config.memReset ∧ (∀ c ∈ rest, k < c.1) ∧ rest.wf = true := by
  simp [Memory.wf, and_assoc]

theorem Memory.wf_filter {m : Memory} (p : Host.Cell → Bool) (h : m.wf = true) :
    Memory.wf (m.filter p) = true := by
  induction m with
  | nil => rfl
  | cons c rest ih =>
    obtain ⟨k, v⟩ := c
    obtain ⟨hk, hv, hall, hrest⟩ := Memory.wf_cons.1 h
    by_cases hp : p (k, v) = true
    · rw [List.filter_cons_of_pos hp]
      exact Memory.wf_cons.2 ⟨hk, hv, fun c hc => hall c (List.mem_of_mem_filter hc), ih hrest⟩
    · rw [List.filter_cons_of_neg hp]
      exact ih hrest

theorem Memory.mem_insertCell {m : Memory} {a : Nat} {v : Byte} {c : Host.Cell}
    (h : c ∈ Memory.insertCell m a v) : c = (a, v) ∨ c ∈ m := by
  induction m with
  | nil =>
    by_cases hv : v = Config.memReset
    · simp [Memory.insertCell, hv] at h
    · exact .inl (by simpa [Memory.insertCell, hv] using h)
  | cons d rest ih =>
    obtain ⟨k, w⟩ := d
    by_cases hlt : a < k
    · by_cases hv : v = Config.memReset
      · exact .inr (by simpa [Memory.insertCell, hlt, hv] using h)
      · simpa [Memory.insertCell, hlt, hv] using h
    · rw [Memory.insertCell, if_neg hlt, List.mem_cons] at h
      rcases h with rfl | h
      · exact .inr (by simp)
      · exact (ih h).imp_right (List.mem_cons_of_mem _)

theorem Memory.wf_insertCell {m : Memory} {a : Nat} (v : Byte) (ha : a < Config.memSize)
    (hne : ∀ c ∈ m, c.1 ≠ a) (h : m.wf = true) : (Memory.insertCell m a v).wf = true := by
  induction m with
  | nil =>
    by_cases hv : v = Config.memReset
    · simp [Memory.insertCell, hv, Memory.wf]
    · simp only [Memory.insertCell, if_neg hv]
      exact Memory.wf_cons.2 ⟨ha, hv, by simp, rfl⟩
  | cons c rest ih =>
    obtain ⟨k, w⟩ := c
    obtain ⟨hk, hw, hall, hrest⟩ := Memory.wf_cons.1 h
    by_cases hlt : a < k
    · by_cases hv : v = Config.memReset
      · simpa [Memory.insertCell, hlt, hv] using h
      · simp only [Memory.insertCell, if_pos hlt, if_neg hv]
        refine Memory.wf_cons.2 ⟨ha, hv, ?_, h⟩
        intro c hc
        rcases List.mem_cons.1 hc with rfl | hc
        · exact hlt
        · exact hlt.trans (hall c hc)
    · simp only [Memory.insertCell, if_neg hlt]
      have hka : k < a := lt_of_le_of_ne (not_lt.1 hlt) (hne (k, w) (by simp))
      refine Memory.wf_cons.2 ⟨hk, hw, ?_, ih (fun c hc => hne c (List.mem_cons_of_mem _ hc)) hrest⟩
      intro c hc
      rcases Memory.mem_insertCell hc with rfl | hc
      · exact hka
      · exact hall c hc

theorem Memory.wf_write {m : Memory} {a : Nat} (v : Byte) (ha : a < Config.memSize) (h : m.wf = true) :
    (m.write a v).wf = true :=
  Memory.wf_insertCell v ha (by simp) (Memory.wf_filter _ h)

/-! ### The checked accesses (R32, R33) -/

theorem State.memRead_ok (s : State) {addr : Nat} (h : addr < 256) : s.memRead addr = .ok (s.mem.read addr) := by
  simp [State.memRead, h]

theorem State.memRead_error (s : State) {addr : Nat} (h : 256 ≤ addr) :
    s.memRead addr = .error (.outOfBoundsAccess .mem addr) := by
  simp [State.memRead, h]

theorem State.memWrite_ok (s : State) {addr : Nat} (v : Nat) (h : addr < 256) :
    s.memWrite addr v = .ok (s.storeByte addr (BitVec.ofNat 8 v)) := by
  simp [State.memWrite, h]

theorem State.memWrite_error (s : State) {addr : Nat} (v : Nat) (h : 256 ≤ addr) :
    s.memWrite addr v = .error (.outOfBoundsAccess .mem addr) := by
  simp [State.memWrite, h]

/-- A store that answers leaves memory canonical if it was. -/
theorem State.memWrite_wf {s t : State} {addr v : Nat} (h : s.memWrite addr v = .ok t) (hwf : s.mem.wf = true) :
    t.mem.wf = true := by
  unfold State.memWrite at h
  split at h
  · cases h; exact Memory.wf_write _ ‹_› hwf
  · cases h

/-- Storing a row of bytes leaves memory canonical if it was. -/
theorem State.memWriteBytes_wf {s t : State} {addr : Nat} {bytes : List Nat}
    (h : s.memWriteBytes addr bytes = .ok t) (hwf : s.mem.wf = true) : t.mem.wf = true := by
  induction bytes generalizing s addr with
  | nil => cases h; exact hwf
  | cons v rest ih =>
    rw [State.memWriteBytes] at h
    cases hw : s.memWrite addr v with
    | error c => rw [hw] at h; cases h
    | ok u => rw [hw] at h; exact ih h (State.memWrite_wf hw hwf)

/-- Placing a byte leaves memory canonical if it was. -/
theorem State.placeByte_wf {s : State} (addr : Nat) (v : Byte) (hwf : s.mem.wf = true) :
    (s.placeByte addr v).mem.wf = true := by
  unfold State.placeByte
  split
  · exact State.memWrite_wf ‹_› hwf
  · exact hwf

/-- Memory at reset is canonical. -/
theorem reset_mem_wf : State.reset.mem.wf = true := rfl

end Sys2Proof.Machine
end

