-- ==== Sys2Proof/Laws/State.lean ====
section
/-! SUPPORT. One lemma per field of State per update, and what a register read gives after each. -/

namespace Sys2Proof.Machine

/-! ### setReg -/

@[simp] theorem State.setReg_mem (s : State) (r : RegIndex) (v : Byte) : (s.setReg r v).mem = s.mem := rfl
@[simp] theorem State.setReg_pc (s : State) (r : RegIndex) (v : Byte) : (s.setReg r v).pc = s.pc := rfl
@[simp] theorem State.setReg_halted (s : State) (r : RegIndex) (v : Byte) : (s.setReg r v).halted = s.halted := rfl
@[simp] theorem State.setReg_fault (s : State) (r : RegIndex) (v : Byte) : (s.setReg r v).fault = s.fault := rfl
@[simp] theorem State.setReg_out (s : State) (r : RegIndex) (v : Byte) : (s.setReg r v).out = s.out := rfl

@[simp] theorem State.getReg_setReg_self (s : State) (r : RegIndex) (v : Byte) : (s.setReg r v).getReg r = v := by
  simp [State.getReg, State.setReg]

@[simp] theorem State.getReg_setReg_ne (s : State) {r q : RegIndex} (v : Byte) (h : q ≠ r) :
    (s.setReg r v).getReg q = s.getReg q := by
  have h' : r.val ≠ q.val := fun e => h (Fin.ext e.symm)
  simp [State.getReg, State.setReg, Vector.getElem_set_ne _ _ h']

/-- Two register files are equal when every register reads alike. -/
theorem State.regs_ext {s t : State} (h : ∀ r, t.getReg r = s.getReg r) : t.regs = s.regs :=
  Vector.ext fun i hi => h ⟨i, hi⟩

/-! ### setSp -/

@[simp] theorem State.setSp_mem (s : State) (v : Byte) : (s.setSp v).mem = s.mem := rfl
@[simp] theorem State.setSp_pc (s : State) (v : Byte) : (s.setSp v).pc = s.pc := rfl
@[simp] theorem State.setSp_halted (s : State) (v : Byte) : (s.setSp v).halted = s.halted := rfl
@[simp] theorem State.setSp_fault (s : State) (v : Byte) : (s.setSp v).fault = s.fault := rfl
@[simp] theorem State.setSp_out (s : State) (v : Byte) : (s.setSp v).out = s.out := rfl
@[simp] theorem State.sp_setSp (s : State) (v : Byte) : (s.setSp v).sp = v := State.getReg_setReg_self s _ v
@[simp] theorem State.getReg_setSp_ne (s : State) {q : RegIndex} (v : Byte) (h : q ≠ 7) :
    (s.setSp v).getReg q = s.getReg q := State.getReg_setReg_ne s v h

/-! ### storeByte -/

@[simp] theorem State.storeByte_mem (s : State) (a : Nat) (v : Byte) : (s.storeByte a v).mem = s.mem.write a v := rfl
@[simp] theorem State.storeByte_regs (s : State) (a : Nat) (v : Byte) : (s.storeByte a v).regs = s.regs := rfl
@[simp] theorem State.storeByte_pc (s : State) (a : Nat) (v : Byte) : (s.storeByte a v).pc = s.pc := rfl
@[simp] theorem State.storeByte_halted (s : State) (a : Nat) (v : Byte) : (s.storeByte a v).halted = s.halted := rfl
@[simp] theorem State.storeByte_fault (s : State) (a : Nat) (v : Byte) : (s.storeByte a v).fault = s.fault := rfl
@[simp] theorem State.storeByte_out (s : State) (a : Nat) (v : Byte) : (s.storeByte a v).out = s.out := rfl
@[simp] theorem State.storeByte_getReg (s : State) (a : Nat) (v : Byte) (r : RegIndex) :
    (s.storeByte a v).getReg r = s.getReg r := rfl

/-! ### emit -/

@[simp] theorem State.emit_mem (s : State) (v : Byte) : (s.emit v).mem = s.mem := rfl
@[simp] theorem State.emit_regs (s : State) (v : Byte) : (s.emit v).regs = s.regs := rfl
@[simp] theorem State.emit_pc (s : State) (v : Byte) : (s.emit v).pc = s.pc := rfl
@[simp] theorem State.emit_halted (s : State) (v : Byte) : (s.emit v).halted = s.halted := rfl
@[simp] theorem State.emit_fault (s : State) (v : Byte) : (s.emit v).fault = s.fault := rfl
@[simp] theorem State.emit_out (s : State) (v : Byte) : (s.emit v).out = s.out ++ [v] := rfl
@[simp] theorem State.emit_getReg (s : State) (v : Byte) (r : RegIndex) : (s.emit v).getReg r = s.getReg r := rfl

/-! ### setHalted -/

@[simp] theorem State.setHalted_mem (s : State) : s.setHalted.mem = s.mem := rfl
@[simp] theorem State.setHalted_regs (s : State) : s.setHalted.regs = s.regs := rfl
@[simp] theorem State.setHalted_pc (s : State) : s.setHalted.pc = s.pc := rfl
@[simp] theorem State.setHalted_halted (s : State) : s.setHalted.halted = true := rfl
@[simp] theorem State.setHalted_fault (s : State) : s.setHalted.fault = s.fault := rfl
@[simp] theorem State.setHalted_out (s : State) : s.setHalted.out = s.out := rfl
@[simp] theorem State.setHalted_getReg (s : State) (r : RegIndex) : s.setHalted.getReg r = s.getReg r := rfl

/-! ### advancePc -/

@[simp] theorem State.advancePc_mem (s : State) (n : Nat) : (s.advancePc n).mem = s.mem := rfl
@[simp] theorem State.advancePc_regs (s : State) (n : Nat) : (s.advancePc n).regs = s.regs := rfl
@[simp] theorem State.advancePc_pc (s : State) (n : Nat) : (s.advancePc n).pc = s.pc + BitVec.ofNat 9 n := rfl
@[simp] theorem State.advancePc_halted (s : State) (n : Nat) : (s.advancePc n).halted = s.halted := rfl
@[simp] theorem State.advancePc_fault (s : State) (n : Nat) : (s.advancePc n).fault = s.fault := rfl
@[simp] theorem State.advancePc_out (s : State) (n : Nat) : (s.advancePc n).out = s.out := rfl
@[simp] theorem State.advancePc_getReg (s : State) (n : Nat) (r : RegIndex) :
    (s.advancePc n).getReg r = s.getReg r := rfl

/-! ### raise -/

@[simp] theorem State.raise_mem (s : State) (c : Cause) : (s.raise c).mem = s.mem := rfl
@[simp] theorem State.raise_regs (s : State) (c : Cause) : (s.raise c).regs = s.regs := rfl
@[simp] theorem State.raise_pc (s : State) (c : Cause) : (s.raise c).pc = s.pc := rfl
@[simp] theorem State.raise_halted (s : State) (c : Cause) : (s.raise c).halted = s.halted := rfl
@[simp] theorem State.raise_fault (s : State) (c : Cause) : (s.raise c).fault = some ⟨c, s.pc⟩ := rfl
@[simp] theorem State.raise_out (s : State) (c : Cause) : (s.raise c).out = s.out := rfl
@[simp] theorem State.raise_getReg (s : State) (c : Cause) (r : RegIndex) : (s.raise c).getReg r = s.getReg r := rfl

/-! ### the stack pointer after each update that keeps it -/

@[simp] theorem State.storeByte_sp (s : State) (a : Nat) (v : Byte) : (s.storeByte a v).sp = s.sp := rfl
@[simp] theorem State.emit_sp (s : State) (v : Byte) : (s.emit v).sp = s.sp := rfl
@[simp] theorem State.setHalted_sp (s : State) : s.setHalted.sp = s.sp := rfl
@[simp] theorem State.advancePc_sp (s : State) (n : Nat) : (s.advancePc n).sp = s.sp := rfl
@[simp] theorem State.raise_sp (s : State) (c : Cause) : (s.raise c).sp = s.sp := rfl

/-! ### status -/

theorem State.status_running_iff (s : State) : s.status = .running ↔ s.fault = none ∧ s.halted = false := by
  cases hf : s.fault <;> cases hh : s.halted <;> simp [State.status, hf, hh]

theorem State.status_halted_iff (s : State) : s.status = .halted ↔ s.fault = none ∧ s.halted = true := by
  cases hf : s.fault <;> cases hh : s.halted <;> simp [State.status, hf, hh]

theorem State.status_faulted_iff (s : State) : s.status = .faulted ↔ ∃ r, s.fault = some r := by
  cases hf : s.fault <;> cases hh : s.halted <;> simp [State.status, hf, hh]

end Sys2Proof.Machine
end

