-- ==== Sys2Proof/Laws/Ops.lean ====
section
/-! SUPPORT. For each shared operation, once, everything it can answer. -/

namespace Sys2Proof.Machine

/-- Sequencing after an operation that answered. -/
@[simp] theorem except_ok_bind {α β : Type} (x : α) (f : α → Except Cause β) : (Except.ok x >>= f) = f x := rfl

/-- Sequencing after an operation that raised. -/
@[simp] theorem except_error_bind {α β : Type} (c : Cause) (f : α → Except Cause β) :
    ((Except.error c : Except Cause α) >>= f) = .error c := rfl

/-- `return` answers. -/
@[simp] theorem except_pure {α : Type} (x : α) : (pure x : Except Cause α) = .ok x := rfl

/-! ### Register operands -/

theorem regIndex_ok {i : Nat} (h : i < 8) : regIndex i = .ok ⟨i, h⟩ := by simp [regIndex, h]

theorem regIndex_error {i : Nat} (h : 8 ≤ i) : regIndex i = .error (.outOfBoundsAccess .reg i) := by
  simp [regIndex, h]

theorem State.readOperand_ok (s : State) {a : Byte} (h : a.toNat < 8) :
    s.readOperand a = .ok (s.getReg ⟨a.toNat, h⟩) := by
  simp [State.readOperand, State.readReg, regIndex_ok h]

theorem State.readOperand_error (s : State) {a : Byte} (h : 8 ≤ a.toNat) :
    s.readOperand a = .error (.outOfBoundsAccess .reg a.toNat) := by
  simp [State.readOperand, State.readReg, regIndex_error h]

theorem State.writeOperand_ok (s : State) {a : Byte} (v : Byte) (h : a.toNat < 8) :
    s.writeOperand a v = .ok (s.setReg ⟨a.toNat, h⟩ v) := by
  simp [State.writeOperand, State.writeReg, regIndex_ok h]

theorem State.writeOperand_error (s : State) {a : Byte} (v : Byte) (h : 8 ≤ a.toNat) :
    s.writeOperand a v = .error (.outOfBoundsAccess .reg a.toNat) := by
  simp [State.writeOperand, State.writeReg, regIndex_error h]

theorem checkOperand_ok {a : Byte} (h : a.toNat < 8) : checkOperand a = .ok () := by
  simp [checkOperand, regIndex_ok h]

theorem checkOperand_error {a : Byte} (h : 8 ≤ a.toNat) :
    checkOperand a = .error (.outOfBoundsAccess .reg a.toNat) := by
  simp [checkOperand, regIndex_error h]

/-! ### Stack-pointer checks -/

theorem checkPush_ok {policy : SpPolicy} {sp : Byte} (h : policy = .fault → sp ≠ 0) :
    checkPush policy sp = .ok () := by
  simp only [checkPush]
  rw [if_neg]
  rintro ⟨hp, hs⟩
  exact h hp hs

theorem checkPush_error : checkPush .fault 0 = .error (.outOfBoundsAccess .stack 0) := rfl

theorem checkPop_ok {policy : SpPolicy} {sp : Byte} (h : policy = .fault → sp.toNat < 0xF4) :
    checkPop policy sp = .ok () := by
  simp only [checkPop]
  rw [if_neg]
  rintro ⟨hp, hs⟩
  exact absurd (h hp) (not_lt.2 hs)

theorem checkPop_error {sp : Byte} (h : 0xF4 ≤ sp.toNat) :
    checkPop .fault sp = .error (.outOfBoundsAccess .stack sp.toNat) := by
  simp only [checkPop]
  rw [if_pos]
  exact ⟨trivial, h⟩

/-! ### Ending an arm -/

@[simp] theorem State.retire_ok (s t : State) (n : Nat) : s.retire n (.ok t) = .next (t.advancePc n) := rfl

@[simp] theorem State.retire_error (s : State) (n : Nat) (c : Cause) : s.retire n (.error c) = .next (s.raise c) := rfl

/-- Everything the end of an arm can answer. -/
theorem State.retire_cases {s t : State} {n : Nat} {e : Except Cause State} (h : s.retire n e = .next t) :
    (∃ u, e = .ok u ∧ t = u.advancePc n) ∨ (∃ c, e = .error c ∧ t = s.raise c) := by
  cases e with
  | ok u => exact .inl ⟨u, rfl, by simpa using h.symm⟩
  | error c => exact .inr ⟨c, rfl, by simpa using h.symm⟩

/-- The end of an arm always answers a next state. -/
theorem State.retire_next (s : State) (n : Nat) (e : Except Cause State) : ∃ t, s.retire n e = .next t := by
  cases e <;> exact ⟨_, rfl⟩

/-! ### The stack effects under either policy (R116 to R118) -/

/-- PUSH's effect where both checks pass. -/
theorem pushEffect_ok {policy : SpPolicy} {a : Byte} {s : State} (ha : a.toNat < 8)
    (hs : policy = .fault → s.sp ≠ 0) :
    pushEffect policy a s =
      .ok ((s.setSp (decrement s.sp)).storeByte (decrement s.sp).toNat
        ((s.setSp (decrement s.sp)).getReg ⟨a.toNat, ha⟩)) := by
  simp [pushEffect, checkOperand_ok ha, checkPush_ok hs, State.readOperand_ok _ ha,
    State.memWrite_ok _ _ (decrement s.sp).isLt]

/-- POP's effect where both checks pass. -/
theorem popEffect_ok {policy : SpPolicy} {a : Byte} {s : State} (ha : a.toNat < 8)
    (hs : policy = .fault → s.sp.toNat < 0xF4) :
    popEffect policy a s =
      .ok ((s.setReg ⟨a.toNat, ha⟩ (s.mem.read s.sp.toNat)).setSp
        (increment (s.setReg ⟨a.toNat, ha⟩ (s.mem.read s.sp.toNat)).sp)) := by
  simp [popEffect, checkOperand_ok ha, checkPop_ok hs, State.memRead_ok s s.sp.isLt, State.writeOperand_ok _ _ ha]

/-! ### Fetching -/

theorem State.fetchBytes_ok {s : State} (h : s.pc.toNat ≤ 253) :
    s.fetchBytes =
      .ok (s.mem.read s.pc.toNat, s.mem.read (s.pc.toNat + 1), s.mem.read (s.pc.toNat + 2)) := by
  simp [State.fetchBytes, State.memRead_ok s (show s.pc.toNat < 256 by omega),
    State.memRead_ok s (show s.pc.toNat + 1 < 256 by omega), State.memRead_ok s (show s.pc.toNat + 2 < 256 by omega)]

theorem State.fetchBytes_error {s : State} (h : 254 ≤ s.pc.toNat) :
    s.fetchBytes = .error (.outOfBoundsAccess .mem (max 256 s.pc.toNat)) := by
  unfold State.fetchBytes
  by_cases h0 : 256 ≤ s.pc.toNat
  · rw [State.memRead_error s h0, Nat.max_eq_right h0]; rfl
  · rw [State.memRead_ok s (by omega)]
    by_cases h1 : s.pc.toNat = 255
    · rw [State.memRead_error s (by omega), h1]; rfl
    · have h2 : s.pc.toNat = 254 := by omega
      rw [State.memRead_ok s (by omega), State.memRead_error s (by omega), h2]; rfl

/-- Everything the fetch and lookup can answer. -/
theorem State.fetchInstr_cases (s : State) :
    (∃ i, s.pc.toNat ≤ 253 ∧ s.fetchInstr = .ok i ∧
      decodeFetched (s.mem.read s.pc.toNat) (s.mem.read (s.pc.toNat + 1)) (s.mem.read (s.pc.toNat + 2)) = some i) ∨
    (s.pc.toNat ≤ 253 ∧ s.fetchInstr = .error (.illegalInstruction (s.mem.read s.pc.toNat)) ∧
      decodeOpcode (s.mem.read s.pc.toNat) = none) ∨
    (254 ≤ s.pc.toNat ∧ s.fetchInstr = .error (.outOfBoundsAccess .mem (max 256 s.pc.toNat))) := by
  by_cases h : s.pc.toNat ≤ 253
  · cases hd : decodeFetched (s.mem.read s.pc.toNat) (s.mem.read (s.pc.toNat + 1)) (s.mem.read (s.pc.toNat + 2)) with
    | some i => exact .inl ⟨i, h, by simp [State.fetchInstr, State.fetchBytes_ok h, hd], rfl⟩
    | none =>
      exact .inr (.inl ⟨h, by simp [State.fetchInstr, State.fetchBytes_ok h, hd], decodeFetched_eq_none.1 hd⟩)
  · have h' : 254 ≤ s.pc.toNat := by omega
    exact .inr (.inr ⟨h', by simp [State.fetchInstr, State.fetchBytes_error h']⟩)

/-- In status Running a step is one cycle. -/
theorem State.stepWith_running {s : State} (d : Instr → State → Host.Outcome State Fault Refusal)
    (h : s.status = .running) : s.stepWith d = s.cycle d := by simp [State.stepWith, h]

/-- In a terminal status a step changes nothing. -/
theorem State.stepWith_terminal {s : State} (d : Instr → State → Host.Outcome State Fault Refusal)
    (h : s.status ≠ .running) : s.stepWith d = .next s := by
  cases hs : s.status <;> simp_all [State.stepWith]

/-- Everything a step can do, whatever the dispatcher: nothing, in a terminal status; the dispatched instruction; or a
fault of the fetch or of the opcode lookup. -/
theorem State.stepWith_cases {s t : State} {d : Instr → State → Host.Outcome State Fault Refusal}
    (h : s.stepWith d = .next t) :
    (s.status ≠ .running ∧ t = s) ∨
    (∃ i, s.status = .running ∧ s.pc.toNat ≤ 253 ∧
      decodeFetched (s.mem.read s.pc.toNat) (s.mem.read (s.pc.toNat + 1)) (s.mem.read (s.pc.toNat + 2)) = some i ∧
      d i s = .next t) ∨
    (s.status = .running ∧ s.pc.toNat ≤ 253 ∧ decodeOpcode (s.mem.read s.pc.toNat) = none ∧
      t = s.raise (.illegalInstruction (s.mem.read s.pc.toNat))) ∨
    (s.status = .running ∧ 254 ≤ s.pc.toNat ∧ t = s.raise (.outOfBoundsAccess .mem (max 256 s.pc.toNat))) := by
  by_cases hr : s.status = .running
  · rw [State.stepWith_running d hr, State.cycle] at h
    rcases s.fetchInstr_cases with ⟨i, hp, hf, hd⟩ | ⟨hp, hf, hd⟩ | ⟨hp, hf⟩ <;> rw [hf] at h
    · exact .inr (.inl ⟨i, hr, hp, hd, h⟩)
    · cases h; exact .inr (.inr (.inl ⟨hr, hp, hd, rfl⟩))
    · cases h; exact .inr (.inr (.inr ⟨hr, hp, rfl⟩))
  · rw [State.stepWith_terminal d hr] at h
    cases h
    exact .inl ⟨hr, rfl⟩

/-- A run is one step and then the rest of it. -/
theorem core_run_succ {s t : State} (n : Nat) (h : step s = .next t) :
    Host.Core.run core (n + 1) s = Host.Core.run core n t := by
  have h' : core.step s = .next t := h
  simp only [Host.Core.run, h']

/-- The machine's step is the machine under its own policy. -/
theorem exec_eq_execUnder : exec = execUnder Config.spPolicy := by
  funext i s
  cases i <;> rfl

theorem step_eq_stepUnder (s : State) : step s = stepUnder Config.spPolicy s := by
  rw [step, stepUnder, exec_eq_execUnder]

end Sys2Proof.Machine
end

