-- ==== Sys2Proof/Laws/PerInstr.lean ====
section
/-! SUPPORT. A statement about every instruction as syntax, one lemma per constructor: its encoding begins with its
opcode and has its length (`30_encoding.md` R50, R52). -/

namespace Sys2Proof.Laws.EncodedShape

/-- The encoding is the opcode byte of the instruction's mnemonic followed by operand bytes, `instrLength` bytes in
all. -/
def Statement (i : Instr) : Prop :=
  (encode i).head? = some (opcodeOf (mnemonicOf i)) ∧ (encode i).length = instrLength i ∧ instrLength i ≤ 3

theorem hlt : Statement .hlt := by simp [Statement, encode, opcodeOf, mnemonicOf, instrLength, lengthOf]

theorem ldi (a imm : Byte) : Statement (.ldi a imm) := by
  simp [Statement, encode, opcodeOf, mnemonicOf, instrLength, lengthOf]

theorem prn (a : Byte) : Statement (.prn a) := by
  simp [Statement, encode, opcodeOf, mnemonicOf, instrLength, lengthOf]

theorem mul (a b : Byte) : Statement (.mul a b) := by
  simp [Statement, encode, opcodeOf, mnemonicOf, instrLength, lengthOf]

theorem push (a : Byte) : Statement (.push a) := by
  simp [Statement, encode, opcodeOf, mnemonicOf, instrLength, lengthOf]

theorem pop (a : Byte) : Statement (.pop a) := by
  simp [Statement, encode, opcodeOf, mnemonicOf, instrLength, lengthOf]

end Sys2Proof.Laws.EncodedShape
end

