-- ==== Sys2Proof/Tests/Slice0.lean ====
section
/-! SUPPORT. Small tests, each of one step, with expected results from `95_test_vectors.md` (the vector is named in each
comment), from the encodings of `30_encoding.md`, and one witness per clause of each statement that has hypotheses. -/

namespace Sys2Proof.Tests

open Sys2Proof Sys2Proof.Machine

/-! ### Helpers -/

/-- The reset machine with bytes stored from `pc` upward and the pc moved there. -/
def machineAt (pc : Nat) (bytes : List Nat) : State :=
  match State.reset.memWriteBytes pc bytes with
  | .ok t => { t with pc := BitVec.ofNat 9 pc }
  | .error _ => { State.reset with pc := BitVec.ofNat 9 pc }

/-- The next state of an outcome, and the given one where it has none. -/
def nextOr (s : State) : Host.Outcome State Fault Refusal → State
  | .next t => t
  | .fault _ => s
  | .refused _ => s

/-- The state after one step. -/
def after (s : State) : State := nextOr s (step s)

/-- The state after one step under `SP_POLICY = wrap`. -/
def afterWrap (s : State) : State := nextOr s (stepUnder .wrap s)

/-! ### WellFormed refuses an ill-formed term of each check -/

theorem test_wellFormed_refuses_ldi : (Instr.ldi 0x08 0x00).wellFormed = false := by decide
theorem test_wellFormed_refuses_prn : (Instr.prn 0xFF).wellFormed = false := by decide
theorem test_wellFormed_refuses_mul_first : (Instr.mul 0x08 0x00).wellFormed = false := by decide
theorem test_wellFormed_refuses_mul_second : (Instr.mul 0x00 0x08).wellFormed = false := by decide
theorem test_wellFormed_refuses_push : (Instr.push 0x80).wellFormed = false := by decide
theorem test_wellFormed_refuses_pop : (Instr.pop 0x09).wellFormed = false := by decide
theorem test_wellFormed_admits_r7 : (Instr.mul 0x07 0x07).wellFormed = true := by decide

/-! ### Decoding, from the bit strings of R52 -/

theorem test_decode_hlt : decodeBytes [0b00000001#8] = .ok (.hlt, []) := rfl
theorem test_decode_ldi : decodeBytes [0b10000010#8, 0x00, 0x08] = .ok (.ldi 0x00 0x08, []) := rfl
theorem test_decode_prn : decodeBytes [0b01000111#8, 0x05, 0x01] = .ok (.prn 0x05, [0x01]) := rfl
theorem test_decode_mul : decodeBytes [0b10100010#8, 0x00, 0x01] = .ok (.mul 0x00 0x01, []) := rfl
theorem test_decode_push : decodeBytes [0b01000101#8, 0x07] = .ok (.push 0x07, []) := rfl
theorem test_decode_pop : decodeBytes [0b01000110#8, 0x01] = .ok (.pop 0x01, []) := rfl

/-- F12: the neighbours of the six opcodes, and values that fit the bit pattern of R53, are illegal. -/
theorem test_decode_neighbours_illegal :
    [0x00, 0x02, 0x44, 0x48, 0x81, 0x83, 0xA1, 0xA3, 0xA0, 0x54, 0x50, 0xFF].all
      (fun n => (decodeOpcode (BitVec.ofNat 8 n)).isNone) = true := by decide

/-- A list that ends inside an instruction is no instruction. -/
theorem test_decode_truncated : decodeBytes [0x82#8, 0x00] = .error .truncated := rfl

/-! ### HLT -/

/-- F1: the last address at which HLT executes. -/
theorem test_hlt_at_253 :
    (after (machineAt 253 [0x01])).status = .halted ∧ (after (machineAt 253 [0x01])).pc = 254 := by decide

/-- F2: HLT at 254 faults in the read-ahead and halted stays false. -/
theorem test_hlt_at_254_faults :
    (after (machineAt 254 [0x01])).fault = some ⟨.outOfBoundsAccess .mem 256, 254⟩ ∧
      (after (machineAt 254 [0x01])).halted = false := by decide

/-! ### LDI -/

/-- L4: the stack pointer is moved without a check. -/
theorem test_ldi_r7 :
    (after (machineAt 0 [0x82, 0x07, 0x10])).sp = 0x10 ∧ (after (machineAt 0 [0x82, 0x07, 0x10])).pc = 3 := by decide

/-- L8: the top bit of a register index is not ignored. -/
theorem test_ldi_index_not_masked :
    (after (machineAt 0 [0x82, 0x80, 0x05])).fault = some ⟨.outOfBoundsAccess .reg 128, 0⟩ := by decide

/-! ### PRN -/

/-- P-4: PRN R7 emits the stack pointer. -/
theorem test_prn_sp : (after (machineAt 0 [0x47, 0x07])).out = [0xF4] := by decide

/-- F10: PRN at 252 completes and ignores operand_b. -/
theorem test_prn_at_252 :
    (after ((machineAt 252 [0x47, 0x00, 0x33, 0x44]).setReg 0 7)).out = [7] ∧
      (after ((machineAt 252 [0x47, 0x00, 0x33, 0x44]).setReg 0 7)).pc = 254 := by decide

/-! ### MUL -/

/-- M4: 200 * 3 = 600 leaves 88. -/
theorem test_mul_wraps :
    (after (((machineAt 0 [0xA2, 0x00, 0x01]).setReg 0 200).setReg 1 3)).getReg 0 = 88 := by decide

/-- M5 and M12: squaring, and operand_a is checked first. -/
theorem test_mul_square_and_order :
    (after ((machineAt 0 [0xA2, 0x02, 0x02]).setReg 2 12)).getReg 2 = 144 ∧
      (after (machineAt 0 [0xA2, 0x0A, 0x0B])).fault = some ⟨.outOfBoundsAccess .reg 10, 0⟩ := by decide

/-! ### PUSH -/

/-- S5: PUSH R7 stores the decremented value. -/
theorem test_push_r7 :
    (after (machineAt 0 [0x45, 0x07])).sp = 0xF3 ∧ (after (machineAt 0 [0x45, 0x07])).mem.read 0xF3 = 0xF3 := by
  decide

/-- S3 and S4: PUSH at stack pointer 0 under either policy. -/
theorem test_push_at_zero :
    (after ((machineAt 0 [0x45, 0x00]).setReg 7 0)).fault = some ⟨.outOfBoundsAccess .stack 0, 0⟩ ∧
      (afterWrap (((machineAt 0 [0x45, 0x00]).setReg 7 0).setReg 0 0x2A)).mem.read 0xFF = 0x2A := by decide

/-! ### POP -/

/-- S13: POP R7 of 0xFF leaves 0x00 under either policy. -/
theorem test_pop_r7_wraps :
    (after (((machineAt 0 [0x46, 0x07]).setReg 7 0xF3).storeByte 0xF3 0xFF)).sp = 0x00 := by decide

/-- S8 and S11: POP at the base under `fault`, and at 0xFF under `wrap`. -/
theorem test_pop_at_base :
    (after (machineAt 0 [0x46, 0x00])).fault = some ⟨.outOfBoundsAccess .stack 244, 0⟩ ∧
      (afterWrap (((machineAt 0 [0x46, 0x00]).setReg 7 0xFF).storeByte 0xFF 7)).getReg 0 = 7 := by decide

/-! ### Witnesses: for each statement with hypotheses, inputs that meet them, at the ends of each clause's range -/

/-- A running machine about to fetch PUSH R0 with the stack pointer at 1. -/
def pusher : State := (machineAt 0 [0x45, 0x00]).setReg 7 1

/-- A running machine about to fetch POP R0 with the stack pointer at 0xF3. -/
def popper : State := (machineAt 0 [0x46, 0x00]).setReg 7 0xF3

/-- A machine that has just halted at address 0. -/
def haltedMachine : State := after (machineAt 0 [0x01])

/-- A machine that has just faulted on opcode 0xFF at address 0. -/
def faultedMachine : State := after (machineAt 0 [0xFF])

theorem witness_DecodeAndEncodeAgree :
    decodeBytes [0xA2#8, 0x07, 0xFF, 0x01] = .ok (.mul 0x07 0xFF, [0x01]) ∧
      [0xA2#8, 0x07, 0xFF, 0x01] = encode (.mul 0x07 0xFF) ++ [0x01] := ⟨rfl, rfl⟩

theorem witness_FetchedBytesDecodeByOwnLength :
    decodeFetched 0x01 0xFF 0xFF = some .hlt ∧ decodeFetched 0x00 0x00 0x00 = none := by decide

theorem witness_register_operands :
    (0x00#8).toNat < 8 ∧ (0x07#8).toNat < 8 ∧ 8 ≤ (0x08#8).toNat ∧ 8 ≤ (0xFF#8).toNat := by decide

/-- LdiWritesTheImmediate, PrnEmitsTheRegister and MulKeepsTheLowByte at both ends of the register range. -/
theorem witness_register_instructions :
    (after (machineAt 253 [0x82, 0x00, 0xFF])).getReg 0 = 0xFF ∧ (after (machineAt 253 [0x82, 0x00, 0xFF])).pc = 256 ∧
      (0x07#8).toNat < 8 := by decide

theorem witness_PushStoresTheNamedRegister :
    (0x06#8).toNat < 8 ∧ (0x06#8).toNat ≠ 7 ∧ pusher.sp ≠ 0x00 ∧ (pusher.setReg 7 0xFF).sp ≠ 0x00 := by decide

theorem witness_PushOfStackPointerStoresDecremented : pusher.sp ≠ 0x00 ∧ State.reset.sp ≠ 0x00 := by decide

theorem witness_PopLoadsTheNamedRegister :
    (0x06#8).toNat < 8 ∧ (0x06#8).toNat ≠ 7 ∧ popper.sp.toNat < 0xF4 ∧ (popper.setReg 7 0).sp.toNat < 0xF4 := by decide

theorem witness_PopIntoStackPointerIncrementsLoaded : popper.sp.toNat < 0xF4 ∧ pusher.sp.toNat < 0xF4 := by decide

theorem witness_RegisterOperandOutOfRangeFaults :
    8 ≤ (0x08#8).toNat ∧ 8 ≤ (0xFF#8).toNat ∧ ((0x07#8).toNat < 8 ∧ 8 ≤ (0x08#8).toNat) := by decide

theorem witness_StackPointerBoundariesFault :
    (0x07#8).toNat < 8 ∧ (pusher.setReg 7 0).sp = 0x00 ∧ 0xF4 ≤ State.reset.sp.toNat ∧
      0xF4 ≤ (popper.setReg 7 0xFF).sp.toNat := by decide

theorem witness_CompletesExactlyWhenChecksPass :
    ((Instr.push 0x07).wellFormed = true ∧ stackAllows .fault (.push 0x07) pusher) ∧
      ((Instr.pop 0x07).wellFormed = true ∧ stackAllows .fault (.pop 0x07) popper) ∧
      ¬((Instr.push 0x07).wellFormed = true ∧ stackAllows .fault (.push 0x07) (pusher.setReg 7 0)) ∧
      ¬((Instr.pop 0x07).wellFormed = true ∧ stackAllows .fault (.pop 0x07) State.reset) := by
  simp only [stackAllows]
  decide

theorem witness_EveryInstructionFrame :
    exec (.push 0x00) pusher = .next (nextOr pusher (exec (.push 0x00) pusher)) ∧
      storeAddress (.push 0x00) pusher ≠ some 1 ∧ storeAddress (.push 0x00) pusher = some 0 := ⟨rfl, by decide, rfl⟩

theorem witness_UnreadRegistersHaveNoInfluence :
    (1 : RegIndex).val ∉ registersRead (.push 0x00) ∧
      exec (.push 0x00) pusher = .next (nextOr pusher (exec (.push 0x00) pusher)) := ⟨by decide, rfl⟩

theorem witness_StepRunsTheDecodedInstruction :
    (machineAt 253 [0xA2, 0x00, 0x01]).status = .running ∧ (machineAt 253 [0xA2, 0x00, 0x01]).pc.toNat ≤ 253 ∧
      decodeFetched ((machineAt 253 [0xA2, 0x00, 0x01]).mem.read 253) ((machineAt 253 [0xA2, 0x00, 0x01]).mem.read 254)
        ((machineAt 253 [0xA2, 0x00, 0x01]).mem.read 255) = some (.mul 0x00 0x01) := by decide

theorem witness_CyclesRunOnlyWhileRunning :
    State.reset.status = .running ∧ haltedMachine.status = .halted ∧ faultedMachine.status = .faulted := by decide

/-- F2, F3, F7 and F8: the three fetch faults, at each pc, whatever the opcode. -/
theorem witness_FetchPastTheEndFaults :
    (after (machineAt 254 [0xFF])).fault = some ⟨.outOfBoundsAccess .mem 256, 254⟩ ∧
      (after (machineAt 255 [0x01])).fault = some ⟨.outOfBoundsAccess .mem 256, 255⟩ ∧
      (after (machineAt 256 [])).fault = some ⟨.outOfBoundsAccess .mem 256, 256⟩ ∧
      (machineAt 254 [0xFF]).status = .running ∧ 254 ≤ (machineAt 254 [0xFF]).pc.toNat := by decide

theorem witness_UnknownOpcodeFaults :
    (machineAt 253 [0xFF]).status = .running ∧ (machineAt 253 [0xFF]).pc.toNat ≤ 253 ∧
      (machineAt 253 [0xFF]).mem.read 253 ∉ [(0x01 : Byte), 0x82, 0x47, 0xA2, 0x45, 0x46] := by decide

theorem witness_PcAdvancesByTheLength :
    (pusher.status = .running ∧ pusher.nextInstr = some (.push 0x00) ∧ step pusher = .next (after pusher) ∧
      (after pusher).fault = none) ∧
      (step (machineAt 0 [0xFF]) = .next faultedMachine ∧ faultedMachine.fault ≠ none) ∧
      (machineAt 253 []).pc.toNat ≤ 253 := ⟨⟨by decide, by decide, rfl, by decide⟩, ⟨rfl, by decide⟩, by decide⟩

theorem witness_FaultingCycleIsPrecise :
    State.reset.pc.toNat ≤ 256 ∧ State.reset.status = .running ∧ step State.reset = .next (after State.reset) ∧
      (after State.reset).fault ≠ none := ⟨by decide, by decide, rfl, by decide⟩

theorem witness_FaultIsFinal : faultedMachine.fault = some ⟨.illegalInstruction 0xFF, 0⟩ := by decide

theorem witness_HaltedFlagIsSetOnlyByHlt :
    (step (machineAt 0 [0x01]) = .next haltedMachine ∧ (machineAt 0 [0x01]).halted = false ∧
      haltedMachine.halted = true) ∧
      exec (.push 0x00) pusher = .next (nextOr pusher (exec (.push 0x00) pusher)) :=
  ⟨⟨rfl, by decide, by decide⟩, rfl⟩

/-- S2: PUSH overwrites its own opcode byte. -/
theorem witness_MemoryChangesOnlyByPush :
    step pusher = .next (after pusher) ∧ (after pusher).mem.read 0 ≠ pusher.mem.read 0 := ⟨rfl, by decide⟩

theorem witness_OutputGrowsOnlyByPrn :
    step (machineAt 0 [0x47, 0x07]) = .next (after (machineAt 0 [0x47, 0x07])) ∧
      (after (machineAt 0 [0x47, 0x07])).out ≠ (machineAt 0 [0x47, 0x07]).out := ⟨rfl, by decide⟩

theorem witness_PushedByteIsFetchedNext :
    (0x07#8).toNat < 8 ∧ ((machineAt 251 [0x45, 0x00]).setReg 7 254).pc.toNat ≤ 251 ∧
      ((machineAt 251 [0x45, 0x00]).setReg 7 254).sp.toNat =
        ((machineAt 251 [0x45, 0x00]).setReg 7 254).pc.toNat + 3 := by decide

theorem witness_PushThenPopRestoresRegisters :
    (0x07#8).toNat < 8 ∧ (0x01 ≤ pusher.sp.toNat ∧ pusher.sp.toNat ≤ 0xF4) ∧
      (0x01 ≤ State.reset.sp.toNat ∧ State.reset.sp.toNat ≤ 0xF4) := by decide

theorem witness_WrapPolicyWrapsModulo256 : (0x00#8).toNat < 8 ∧ (0x07#8).toNat < 8 := by decide

theorem witness_StepKeepsTheInvariant :
    pusher.Inv ∧ haltedMachine.Inv ∧ faultedMachine.Inv ∧ step pusher = .next (after pusher) :=
  ⟨by decide, by decide, by decide, rfl⟩

theorem witness_CanonicalMemoriesAreExtensional :
    Memory.wf [(0, 0x45#8), (255, 0x01#8)] = true ∧ Memory.wf [(3, 0x00#8)] = false ∧
      Memory.wf [(3, 0x01#8), (3, 0x02#8)] = false ∧ Memory.wf [(256, 0x01#8)] = false := by decide

theorem witness_LoadPlacesTheProgram :
    (List.range 256).length ≤ 256 ∧ 256 < (List.range 257).length ∧
      Stage.loaded ≠ Stage.constructed ∧ Stage.started ≠ Stage.constructed := by
  rw [List.length_range, List.length_range]
  decide

theorem witness_PlacedWordIsRunNext :
    State.reset.status = .running ∧ (machineAt 253 []).pc.toNat ≤ 253 ∧
      decodeTableWord 24 0x0100A2 = some (.mul 0x00 0x01) := by decide

end Sys2Proof.Tests
end

/-! ### Every arm is one effect and its retirement -/

namespace Sys2Proof.Machine

/-- The effect of an instruction alone, before the pc advances; `execUnder_eq_retire` ties it to the dispatcher. -/
def effectUnder (policy : SpPolicy) (i : Instr) (s : State) : Except Cause State :=
  match i with
  | .hlt => .ok s.setHalted
  | .ldi a imm => s.writeOperand a imm
  | .prn a => prnEffect a s
  | .mul a b => mulEffect a b s
  | .push a => pushEffect policy a s
  | .pop a => popEffect policy a s

theorem execUnder_eq_retire (policy : SpPolicy) (i : Instr) (s : State) :
    execUnder policy i s = s.retire (instrLength i) (effectUnder policy i s) := by
  cases i <;> rfl

theorem exec_eq_retire (i : Instr) (s : State) :
    exec i s = s.retire (instrLength i) (effectUnder Config.spPolicy i s) := by
  rw [exec_eq_execUnder, execUnder_eq_retire]

/-- Everything an instruction can do: complete its effect and advance the pc, or raise a cause. -/
theorem exec_cases {i : Instr} {s t : State} (h : exec i s = .next t) :
    (∃ u, effectUnder Config.spPolicy i s = .ok u ∧ t = u.advancePc (instrLength i)) ∨
    (∃ c, effectUnder Config.spPolicy i s = .error c ∧ t = s.raise c) :=
  State.retire_cases (exec_eq_retire i s ▸ h)

/-! ### The pc, the halted flag and the latch are apart from what an effect reads and writes -/

/-- `s` with its pc, halted flag and fault latch replaced. -/
def State.withControl (s : State) (p : Pc) (b : Bool) (f : Option FaultRecord) : State :=
  { s with pc := p, halted := b, fault := f }

section
variable (s : State) (p : Pc) (b : Bool) (f : Option FaultRecord)

@[simp] theorem State.withControl_pc : (s.withControl p b f).pc = p := rfl
@[simp] theorem State.withControl_halted : (s.withControl p b f).halted = b := rfl
@[simp] theorem State.withControl_fault : (s.withControl p b f).fault = f := rfl
@[simp] theorem State.withControl_sp : (s.withControl p b f).sp = s.sp := rfl

@[simp] theorem State.readOperand_withControl (a : Byte) :
    (s.withControl p b f).readOperand a = s.readOperand a := rfl

@[simp] theorem State.memRead_withControl (addr : Nat) : (s.withControl p b f).memRead addr = s.memRead addr := rfl

@[simp] theorem State.setSp_withControl (v : Byte) :
    (s.withControl p b f).setSp v = (s.setSp v).withControl p b f := rfl

@[simp] theorem State.emit_withControl (v : Byte) :
    (s.withControl p b f).emit v = (s.emit v).withControl p b f := rfl

@[simp] theorem State.writeOperand_withControl (a v : Byte) :
    (s.withControl p b f).writeOperand a v = (·.withControl p b f) <$> s.writeOperand a v := by
  unfold State.writeOperand State.writeReg
  cases regIndex a.toNat <;> rfl

@[simp] theorem State.memWrite_withControl (addr v : Nat) :
    (s.withControl p b f).memWrite addr v = (·.withControl p b f) <$> s.memWrite addr v := by
  unfold State.memWrite
  split <;> rfl

/-- No instruction but HLT reads or writes the pc, the halted flag or the latch in its effect: replacing them before
the effect is replacing them after it. -/
theorem effectUnder_withControl (policy : SpPolicy) {i : Instr} (hi : i ≠ .hlt) :
    effectUnder policy i (s.withControl p b f) = (·.withControl p b f) <$> effectUnder policy i s := by
  cases i with
  | hlt => exact absurd rfl hi
  | ldi a imm => exact s.writeOperand_withControl p b f a imm
  | prn a => simp [effectUnder, prnEffect]
  | mul a b => simp [effectUnder, mulEffect]
  | push a => simp [effectUnder, pushEffect]
  | pop a => simp [effectUnder, popEffect]

end

/-- An effect that completes leaves the pc, the latch and, unless it is HLT's, the halted flag. -/
theorem effectUnder_keeps_control {policy : SpPolicy} {i : Instr} {s u : State}
    (h : effectUnder policy i s = .ok u) :
    u.pc = s.pc ∧ u.fault = s.fault ∧ (i ≠ .hlt → u.halted = s.halted) := by
  by_cases hi : i = .hlt
  · subst hi
    cases h
    exact ⟨rfl, rfl, fun hne => absurd rfl hne⟩
  · have hmap := effectUnder_withControl s s.pc s.halted s.fault policy hi
    have hu : u = u.withControl s.pc s.halted s.fault := by
      rw [show s.withControl s.pc s.halted s.fault = s from rfl, h] at hmap
      exact Except.ok.inj hmap
    rw [hu]
    simp

theorem instrLength_le_three (i : Instr) : instrLength i ≤ 3 := by
  unfold instrLength
  cases mnemonicOf i <;> decide

/-! ### What a step does to the pc and the halted flag -/

/-- `nextInstr` in the terms in which `State.stepWith_cases` speaks of the fetch. -/
theorem State.nextInstr_eq_some {s : State} {i : Instr} :
    s.nextInstr = some i ↔ s.pc.toNat ≤ 253 ∧
      decodeFetched (s.mem.read s.pc.toNat) (s.mem.read (s.pc.toNat + 1)) (s.mem.read (s.pc.toNat + 2)) = some i := by
  simp [State.nextInstr]

/-- Everything a step can do: nothing, in a terminal status; the next instruction; or a fault before any
instruction. -/
theorem step_cases {s t : State} (h : step s = .next t) :
    (s.status ≠ .running ∧ t = s) ∨
    (∃ i, s.status = .running ∧ s.nextInstr = some i ∧ exec i s = .next t) ∨
    (∃ c, s.status = .running ∧ s.nextInstr = none ∧ t = s.raise c) := by
  obtain hterm | ⟨i, hr, hp, hd, he⟩ | ⟨hr, hp, hd, ht⟩ | ⟨hr, hp, ht⟩ := State.stepWith_cases h
  · exact .inl hterm
  · exact .inr (.inl ⟨i, hr, State.nextInstr_eq_some.2 ⟨hp, hd⟩, he⟩)
  · exact .inr (.inr ⟨_, hr, by simp [State.nextInstr, decodeFetched_eq_none.2 hd], ht⟩)
  · exact .inr (.inr ⟨_, hr, by simp [State.nextInstr, show ¬ s.pc.toNat ≤ 253 by omega], ht⟩)

/-- An instruction that leaves the latch clear completed: the pc is past it, by a sum that does not wrap. -/
theorem exec_pc_of_no_fault {i : Instr} {s t : State} (hp : s.pc.toNat ≤ 253) (h : exec i s = .next t)
    (hf : t.fault = none) : t.pc.toNat = s.pc.toNat + instrLength i := by
  obtain ⟨u, hu, rfl⟩ | ⟨c, -, rfl⟩ := exec_cases h
  · have hpc : u.pc = s.pc := (effectUnder_keeps_control hu).1
    have hlen : instrLength i ≤ 3 := instrLength_le_three i
    rw [State.advancePc_pc, hpc, BitVec.toNat_add, BitVec.toNat_ofNat]
    omega
  · exact absurd hf (by simp)

/-- An instruction that sets the latch did not complete: the pc still stands at it. -/
theorem exec_pc_of_fault {i : Instr} {s t : State} (hs : s.fault = none) (h : exec i s = .next t)
    (hf : t.fault ≠ none) : t.pc = s.pc := by
  obtain ⟨u, hu, rfl⟩ | ⟨c, -, rfl⟩ := exec_cases h
  · obtain ⟨-, hfault, -⟩ := effectUnder_keeps_control hu
    exact absurd (hfault.trans hs) hf
  · rfl

/-- No instruction but HLT changes the halted flag, whether it completes or faults. -/
theorem exec_keeps_halted {i : Instr} {s t : State} (hi : i ≠ .hlt) (h : exec i s = .next t) :
    t.halted = s.halted := by
  obtain ⟨u, hu, rfl⟩ | ⟨c, -, rfl⟩ := exec_cases h
  · obtain ⟨-, -, hhalted⟩ := effectUnder_keeps_control hu
    exact hhalted hi
  · rfl

/-- An instruction does not read the halted flag: with another value of it before, the next state is the same but for
the flag. -/
theorem exec_halted_irrelevant {i : Instr} {s t : State} (b : Bool) (h : exec i s = .next t) :
    ∃ u, exec i { s with halted := b } = .next u ∧ { u with halted := t.halted } = t := by
  by_cases hi : i = .hlt
  · subst hi
    cases h
    exact ⟨_, rfl, rfl⟩
  · have hmap := effectUnder_withControl s s.pc b s.fault Config.spPolicy hi
    have hexec : exec i { s with halted := b } =
        (s.withControl s.pc b s.fault).retire (instrLength i)
          ((·.withControl s.pc b s.fault) <$> effectUnder Config.spPolicy i s) := hmap ▸ exec_eq_retire i _
    rw [hexec]
    obtain ⟨u, hu, rfl⟩ | ⟨c, hc, rfl⟩ := exec_cases h
    · obtain ⟨hpc, hfault, -⟩ := effectUnder_keeps_control hu
      rw [hu, ← hpc, ← hfault]
      exact ⟨_, rfl, rfl⟩
    · rw [hc]
      exact ⟨_, rfl, rfl⟩

/-- A state that a step leaves as it is ends every run from it. -/
theorem core_run_of_step_self {s : State} (h : step s = .next s) (n : Nat) : Host.Core.run core n s = .next s := by
  induction n with
  | zero => rfl
  | succ n ih => rw [core_run_succ n h, ih]

theorem step_of_halted {s : State} (h : s.halted = true) : step s = .next s :=
  State.stepWith_terminal exec fun hr => by simp [State.status_running_iff, h] at hr

end Sys2Proof.Machine

section
open Sys2Proof Sys2Proof.Machine

/-- Settles O23: an arm's effect leaves the pc, so only its retirement moves it, and a cycle that faults has not
retired. -/
theorem pcAdvancesByTheLength : Obligations.PcAdvancesByTheLength := by
  refine ⟨?advances, ?faults, fun s hp => ⟨_, State.fetchBytes_ok hp⟩⟩
  case advances =>
    intro s t i hr hi hstep hf
    obtain ⟨hne, -⟩ | ⟨j, -, hj, hexec⟩ | ⟨c, -, hnone, -⟩ := step_cases hstep
    · exact absurd hr hne
    · obtain rfl : i = j := Option.some.inj (hi.symm.trans hj)
      have hpc := exec_pc_of_no_fault (State.nextInstr_eq_some.1 hi).1 hexec hf
      cases i <;> exact hpc
    · exact absurd (hi.symm.trans hnone) (by simp)
  case faults =>
    intro s t hr hstep hf
    obtain ⟨-, rfl⟩ | ⟨i, -, -, hexec⟩ | ⟨c, -, -, rfl⟩ := step_cases hstep
    · rfl
    · exact exec_pc_of_fault ((State.status_running_iff s).1 hr).1 hexec hf
    · rfl

/-- Settles O26: of the arms' effects only HLT's touches the halted flag, and none reads it; a halted machine is a
fixed point of the step. -/
theorem haltedFlagIsSetOnlyByHlt : Obligations.HaltedFlagIsSetOnlyByHlt := by
  refine ⟨rfl, ?onlyHlt, fun s n hs => core_run_of_step_self (step_of_halted hs) n,
    fun i s t b h => exec_halted_irrelevant b h⟩
  intro s t hstep hs ht
  obtain ⟨-, rfl⟩ | ⟨i, -, hi, hexec⟩ | ⟨c, -, -, rfl⟩ := step_cases hstep
  · exact absurd (hs.symm.trans ht) (by decide)
  · by_contra hne
    have hkeep : t.halted = s.halted := exec_keeps_halted (fun e => hne (e ▸ hi)) hexec
    exact absurd (hkeep.symm.trans ht) (by simp [hs])
  · exact absurd (hs.symm.trans ht) (by decide)

end

/-! ### The opcode map and the status guard of the cycle (`40_fetch_decode_dispatch.md` R70, R77) -/

section
open Sys2Proof Sys2Proof.Machine

/-- Settles O2: the lookup gives a mnemonic only for that mnemonic's own opcode, so each mnemonic has one row, and the
lookup reads every row back. -/
theorem opcodeMapIsTheSixRows : Obligations.OpcodeMapIsTheSixRows := by
  intro op m len
  constructor
  · rintro ⟨hop, rfl⟩
    obtain rfl : op = opcodeOf m := decodeOpcode_eq_some.1 hop
    cases m <;> decide
  · intro hrow
    simp only [List.mem_cons, List.not_mem_nil, or_false, Prod.mk.injEq] at hrow
    obtain ⟨rfl, rfl, rfl⟩ | ⟨rfl, rfl, rfl⟩ | ⟨rfl, rfl, rfl⟩ | ⟨rfl, rfl, rfl⟩ | ⟨rfl, rfl, rfl⟩ | ⟨rfl, rfl, rfl⟩ :=
      hrow <;> exact ⟨decodeOpcode_eq_some.2 rfl, rfl⟩

/-- Settles O20: the step is the cycle in status Running, and Halted and Faulted are the terminal statuses. -/
theorem cyclesRunOnlyWhileRunning : Obligations.CyclesRunOnlyWhileRunning := by
  intro s
  refine ⟨fun hrun => State.stepWith_running exec hrun, fun hhalt => ?_, fun hfault => ?_⟩
  · exact State.stepWith_terminal exec (by simp [hhalt])
  · exact State.stepWith_terminal exec (by simp [hfault])

end

/-! ### Faulted is terminal (`60_exceptions.md` R138) -/

namespace Sys2Proof.Machine

theorem step_of_faulted {s : State} {r : FaultRecord} (h : s.fault = some r) : step s = .next s :=
  State.stepWith_terminal exec fun hr => by simp [State.status_running_iff, h] at hr

end Sys2Proof.Machine

section
open Sys2Proof Sys2Proof.Machine

/-- Settles O25: a state with a record in the latch is a fixed point of the step, so every run from it stays there. -/
theorem faultIsFinal : Obligations.FaultIsFinal :=
  fun _ _ n hs => core_run_of_step_self (step_of_faulted hs) n

end

/-! ### Decoding is the inverse of encoding (`30_encoding.md` R50 to R58) -/

namespace Sys2Proof

theorem oneOperand_eq_ok {make : Byte → Instr} {bytes rest : List Byte} {i : Instr} :
    oneOperand make bytes = .ok (i, rest) ↔ ∃ a, i = make a ∧ bytes = a :: rest := by
  cases bytes with
  | nil => simp [oneOperand]
  | cons a tail => simp [oneOperand, eq_comm]

theorem twoOperands_eq_ok {make : Byte → Byte → Instr} {bytes rest : List Byte} {i : Instr} :
    twoOperands make bytes = .ok (i, rest) ↔ ∃ a b, i = make a b ∧ bytes = a :: b :: rest := by
  match bytes with
  | [] => simp [twoOperands]
  | [_] => simp [twoOperands]
  | a :: b :: tail => simp [twoOperands, eq_comm]

/-- The operand bytes that a mnemonic reads are those that its encoding holds after the opcode. -/
theorem decodeOperands_encode {m : Mnemonic} {bytes rest : List Byte} {i : Instr}
    (h : decodeOperands m bytes = .ok (i, rest)) : opcodeOf m :: bytes = encode i ++ rest := by
  cases m with
  | hlt => cases h; rfl
  | ldi => obtain ⟨a, imm, rfl, rfl⟩ := twoOperands_eq_ok.1 h; rfl
  | prn => obtain ⟨a, rfl, rfl⟩ := oneOperand_eq_ok.1 h; rfl
  | mul => obtain ⟨a, b, rfl, rfl⟩ := twoOperands_eq_ok.1 h; rfl
  | push => obtain ⟨a, rfl, rfl⟩ := oneOperand_eq_ok.1 h; rfl
  | pop => obtain ⟨a, rfl, rfl⟩ := oneOperand_eq_ok.1 h; rfl

/-- The decoder answers an instruction only when the list begins with that instruction's encoding. -/
theorem eq_encode_of_decodeBytes {bytes rest : List Byte} {i : Instr} (h : decodeBytes bytes = .ok (i, rest)) :
    bytes = encode i ++ rest := by
  cases bytes with
  | nil => cases h
  | cons op tail =>
    cases hm : decodeOpcode op with
    | none => simp [decodeBytes, hm] at h
    | some m =>
      obtain rfl : op = opcodeOf m := decodeOpcode_eq_some.1 hm
      exact decodeOperands_encode (by simpa [decodeBytes, hm] using h)

theorem decodeBytes_encode (i : Instr) (rest : List Byte) : decodeBytes (encode i ++ rest) = .ok (i, rest) := by
  cases i <;> rfl

/-- What the cycle decodes is what the decoder finds at the front of the three fetched bytes. -/
theorem decodeFetched_eq_some {op a b : Byte} {i : Instr} :
    decodeFetched op a b = some i ↔ ∃ rest, decodeBytes [op, a, b] = .ok (i, rest) := by
  unfold decodeFetched
  cases decodeBytes [op, a, b] with
  | error e => simp
  | ok r => obtain ⟨j, tail⟩ := r; simp [eq_comm]

/-- The opcode byte alone says which instruction's encoding stands in the fetched bytes. -/
theorem opcode_of_decodeFetched {op a b : Byte} {i : Instr} (h : decodeFetched op a b = some i) :
    op = opcodeOf (mnemonicOf i) := by
  obtain ⟨rest, hdec⟩ := decodeFetched_eq_some.1 h
  have hbytes := eq_encode_of_decodeBytes hdec
  cases i <;> exact List.head_eq_of_cons_eq hbytes

end Sys2Proof

section
open Sys2Proof Sys2Proof.Machine

/-- Settles O3: the decoder reads each encoding back, and what it reads is an encoding. -/
theorem decodeAndEncodeAgree : Obligations.DecodeAndEncodeAgree := by
  intro bytes i rest
  constructor
  · exact eq_encode_of_decodeBytes
  · rintro rfl
    exact decodeBytes_encode i rest

/-- Settles O4: the fetched bytes are a list like any other to the decoder, and the lookup reads the opcode alone. -/
theorem fetchedBytesDecodeByOwnLength : Obligations.FetchedBytesDecodeByOwnLength := by
  refine ⟨fun op a b i => ?ownBytes, fun op a b a' b' h => ?legality, by decide +kernel⟩
  case ownBytes => simp only [decodeFetched_eq_some, decodeAndEncodeAgree _ _ _]
  case legality => exact decodeFetched_eq_none.2 (decodeFetched_eq_none.1 h)

end

/-! ### What completes and what is refused: everything an instruction can do, once (R76, R116, R136) -/

namespace Sys2Proof.Machine

/-- `Completes i s u`: the effect of `i` in state `s`, its register operands being legal, leaves `u`, whose pc is not yet
advanced; `effectUnder_eq_ok` ties it to the dispatcher. -/
inductive Completes : Instr → State → State → Prop
  | hlt (s : State) : Completes .hlt s s.setHalted
  | ldi {a : Byte} (imm : Byte) (s : State) (ha : a.toNat < 8) :
      Completes (.ldi a imm) s (s.setReg ⟨a.toNat, ha⟩ imm)
  | prn {a : Byte} (s : State) (ha : a.toNat < 8) : Completes (.prn a) s (s.emit (s.getReg ⟨a.toNat, ha⟩))
  | mul {a b : Byte} (s : State) (ha : a.toNat < 8) (hb : b.toNat < 8) :
      Completes (.mul a b) s (s.setReg ⟨a.toNat, ha⟩ (s.getReg ⟨a.toNat, ha⟩ * s.getReg ⟨b.toNat, hb⟩))
  | push {a : Byte} (s : State) (ha : a.toNat < 8) :
      Completes (.push a) s ((s.setSp (decrement s.sp)).storeByte (decrement s.sp).toNat
        ((s.setSp (decrement s.sp)).getReg ⟨a.toNat, ha⟩))
  | pop {a : Byte} (s : State) (ha : a.toNat < 8) :
      Completes (.pop a) s ((s.setReg ⟨a.toNat, ha⟩ (s.mem.read s.sp.toNat)).setSp
        (increment (s.setReg ⟨a.toNat, ha⟩ (s.mem.read s.sp.toNat)).sp))

/-- The register operands of an instruction, in the order in which they are checked (R136). -/
def registerOperands : Instr → List Byte
  | .hlt => []
  | .ldi a _ => [a]
  | .prn a => [a]
  | .mul a b => [a, b]
  | .push a => [a]
  | .pop a => [a]

/-- `Refuses policy i s c`: the checks of `i` in state `s` raise `c`, the first register operand that names no register
before the stack pointer; `effectUnder_eq_error` ties it to the dispatcher. -/
inductive Refuses (policy : SpPolicy) (i : Instr) (s : State) : Cause → Prop
  | operand {a : Byte} (h : (registerOperands i).find? (!isRegister ·) = some a) :
      Refuses policy i s (.outOfBoundsAccess .reg a.toNat)
  | stack (hwf : i.wellFormed = true) (hsp : ¬ stackAllows policy i s) :
      Refuses policy i s (.outOfBoundsAccess .stack s.sp.toNat)

/-! #### The two relations against the dispatcher's effect -/

theorem isRegister_iff {a : Byte} : isRegister a = true ↔ a.toNat < 8 := by simp [isRegister]

theorem wellFormed_eq_all (i : Instr) : i.wellFormed = (registerOperands i).all isRegister := by
  cases i <;> simp [Instr.wellFormed, registerOperands]

theorem toNat_pos_iff {x : Byte} : 0 < x.toNat ↔ x ≠ 0 := by simp [Nat.pos_iff_ne_zero, BitVec.toNat_eq]

/-- The stack pointers that a policy does not allow: under `fault` 0 for PUSH, and 0xF4 or above for POP (R116). -/
theorem not_stackAllows {policy : SpPolicy} {i : Instr} {s : State} : ¬ stackAllows policy i s ↔
    policy = .fault ∧ ((∃ a, i = .push a) ∧ s.sp = 0 ∨ (∃ a, i = .pop a) ∧ 0xF4 ≤ s.sp.toNat) := by
  cases i with
  | push a => simp [stackAllows, BitVec.toNat_eq]
  | pop a => simp [stackAllows]
  | _ => simp [stackAllows]

theorem stackAllows_wrap (i : Instr) (s : State) : stackAllows .wrap i s := by
  by_contra h
  exact absurd (not_stackAllows.1 h).1 (by decide)

theorem mulEffect_ok {a b : Byte} (s : State) (ha : a.toNat < 8) (hb : b.toNat < 8) :
    mulEffect a b s =
      .ok (s.setReg ⟨a.toNat, ha⟩ (s.getReg ⟨a.toNat, ha⟩ * s.getReg ⟨b.toNat, hb⟩)) := by
  simp [mulEffect, alu, State.readOperand_ok _ ha, State.readOperand_ok _ hb, State.writeOperand_ok _ _ ha,
    BitVec.ofNat_mul]

theorem Completes.effect {policy : SpPolicy} {i : Instr} {s u : State} (hu : Completes i s u)
    (hsp : stackAllows policy i s) : effectUnder policy i s = .ok u := by
  cases hu with
  | hlt => rfl
  | ldi imm _ ha => exact s.writeOperand_ok imm ha
  | prn _ ha => simp [effectUnder, prnEffect, s.readOperand_ok ha]
  | mul _ ha hb => exact mulEffect_ok s ha hb
  | push _ ha => exact pushEffect_ok ha fun hp => toNat_pos_iff.1 (hsp hp)
  | pop _ ha => exact popEffect_ok ha hsp

theorem exists_completes {i : Instr} (s : State) (h : i.wellFormed = true) : ∃ u, Completes i s u := by
  cases i with
  | hlt => exact ⟨_, .hlt s⟩
  | ldi a imm => exact ⟨_, .ldi imm s (isRegister_iff.1 h)⟩
  | prn a => exact ⟨_, .prn s (isRegister_iff.1 h)⟩
  | mul a b =>
    obtain ⟨ha, hb⟩ := Bool.and_eq_true_iff.1 h
    exact ⟨_, .mul s (isRegister_iff.1 ha) (isRegister_iff.1 hb)⟩
  | push a => exact ⟨_, .push s (isRegister_iff.1 h)⟩
  | pop a => exact ⟨_, .pop s (isRegister_iff.1 h)⟩

/-- The first register operand that names no register is what the effect raises, whatever the stack pointer. -/
theorem effectUnder_of_operand {policy : SpPolicy} {i : Instr} {s : State} {x : Byte}
    (h : (registerOperands i).find? (!isRegister ·) = some x) :
    effectUnder policy i s = .error (.outOfBoundsAccess .reg x.toNat) := by
  have hx : 8 ≤ x.toNat := by simpa [isRegister] using List.find?_some h
  cases i with
  | hlt => cases h
  | ldi a imm =>
    obtain rfl : x = a := by simpa [registerOperands] using List.mem_of_find?_eq_some h
    exact s.writeOperand_error imm hx
  | prn a =>
    obtain rfl : x = a := by simpa [registerOperands] using List.mem_of_find?_eq_some h
    simp [effectUnder, prnEffect, s.readOperand_error hx]
  | mul a b =>
    by_cases ha : a.toNat < 8
    · obtain ⟨-, rfl⟩ : 8 ≤ b.toNat ∧ b = x := by simpa [registerOperands, isRegister, ha] using h
      simp [effectUnder, mulEffect, s.readOperand_ok ha, s.readOperand_error hx]
    · obtain rfl : a = x := by simpa [registerOperands, isRegister, ha] using h
      simp [effectUnder, mulEffect, s.readOperand_error hx]
  | push a =>
    obtain rfl : x = a := by simpa [registerOperands] using List.mem_of_find?_eq_some h
    simp [effectUnder, pushEffect, checkOperand_error hx]
  | pop a =>
    obtain rfl : x = a := by simpa [registerOperands] using List.mem_of_find?_eq_some h
    simp [effectUnder, popEffect, checkOperand_error hx]

/-- With legal operands a stack pointer that the policy does not allow is what the effect raises. -/
theorem effectUnder_of_stack {policy : SpPolicy} {i : Instr} {s : State} (hwf : i.wellFormed = true)
    (hsp : ¬ stackAllows policy i s) : effectUnder policy i s = .error (.outOfBoundsAccess .stack s.sp.toNat) := by
  obtain ⟨rfl, ⟨⟨a, rfl⟩, h⟩ | ⟨⟨a, rfl⟩, h⟩⟩ := not_stackAllows.1 hsp
  · rw [effectUnder, pushEffect, checkOperand_ok (isRegister_iff.1 hwf), h, checkPush_error]
    rfl
  · simp [effectUnder, popEffect, checkOperand_ok (isRegister_iff.1 hwf), checkPop_error h]

theorem Refuses.effect {policy : SpPolicy} {i : Instr} {s : State} {c : Cause} (hc : Refuses policy i s c) :
    effectUnder policy i s = .error c := by
  cases hc with
  | operand h => exact effectUnder_of_operand h
  | stack hwf hsp => exact effectUnder_of_stack hwf hsp

/-- Legal operands and an allowed stack pointer complete; anything else is refused. -/
theorem completes_or_refuses (policy : SpPolicy) (i : Instr) (s : State) :
    (i.wellFormed = true ∧ stackAllows policy i s ∧ ∃ u, Completes i s u) ∨
    (¬(i.wellFormed = true ∧ stackAllows policy i s) ∧ ∃ c, Refuses policy i s c) := by
  by_cases hwf : i.wellFormed = true
  · by_cases hsp : stackAllows policy i s
    · exact .inl ⟨hwf, hsp, exists_completes s hwf⟩
    · exact .inr ⟨fun h => hsp h.2, _, .stack hwf hsp⟩
  · have hbad : ((registerOperands i).find? (!isRegister ·)).isSome = true := by
      simpa [wellFormed_eq_all] using hwf
    obtain ⟨a, ha⟩ := Option.isSome_iff_exists.1 hbad
    exact .inr ⟨fun h => hwf h.1, _, .operand ha⟩

theorem effectUnder_eq_ok {policy : SpPolicy} {i : Instr} {s u : State} :
    effectUnder policy i s = .ok u ↔ stackAllows policy i s ∧ Completes i s u := by
  refine ⟨fun h => ?_, fun ⟨hsp, hu⟩ => hu.effect hsp⟩
  obtain ⟨-, hsp, v, hv⟩ | ⟨-, c, hc⟩ := completes_or_refuses policy i s
  · obtain rfl : v = u := Except.ok.inj ((hv.effect hsp).symm.trans h)
    exact ⟨hsp, hv⟩
  · exact absurd (hc.effect.symm.trans h) (by simp)

theorem effectUnder_eq_error {policy : SpPolicy} {i : Instr} {s : State} {c : Cause} :
    effectUnder policy i s = .error c ↔ Refuses policy i s c := by
  refine ⟨fun h => ?_, Refuses.effect⟩
  obtain ⟨-, hsp, v, hv⟩ | ⟨-, d, hd⟩ := completes_or_refuses policy i s
  · exact absurd ((hv.effect hsp).symm.trans h) (by simp)
  · obtain rfl : d = c := Except.error.inj (hd.effect.symm.trans h)
    exact hd

theorem Completes.execUnder {policy : SpPolicy} {i : Instr} {s u : State} (hu : Completes i s u)
    (hsp : stackAllows policy i s) : execUnder policy i s = .next (u.advancePc (instrLength i)) := by
  rw [execUnder_eq_retire, hu.effect hsp, State.retire_ok]

theorem Completes.exec {i : Instr} {s u : State} (hu : Completes i s u) (hsp : stackAllows .fault i s) :
    exec i s = .next (u.advancePc (instrLength i)) := by
  rw [exec_eq_execUnder, hu.execUnder hsp]

theorem Refuses.execUnder {policy : SpPolicy} {i : Instr} {s : State} {c : Cause} (hc : Refuses policy i s c) :
    execUnder policy i s = .next (s.raise c) := by
  rw [execUnder_eq_retire, hc.effect, State.retire_error]

theorem Refuses.exec {i : Instr} {s : State} {c : Cause} (hc : Refuses .fault i s c) :
    exec i s = .next (s.raise c) := by
  rw [exec_eq_execUnder, hc.execUnder]

/-- Everything an instruction can do: complete and advance the pc, or be refused and latch why. -/
theorem exec_completes_or_refuses {i : Instr} {s t : State} (h : exec i s = .next t) :
    (∃ u, Completes i s u ∧ stackAllows .fault i s ∧ t = u.advancePc (instrLength i)) ∨
    (∃ c, Refuses .fault i s c ∧ t = s.raise c) := by
  obtain ⟨u, hu, rfl⟩ | ⟨c, hc, rfl⟩ := exec_cases h
  · obtain ⟨hsp, hu⟩ := effectUnder_eq_ok.1 hu
    exact .inl ⟨u, hu, hsp, rfl⟩
  · exact .inr ⟨c, effectUnder_eq_error.1 hc, rfl⟩

/-! #### What a completed effect leaves unchanged -/

theorem Completes.keeps_control {i : Instr} {s u : State} (hu : Completes i s u) :
    u.pc = s.pc ∧ u.fault = s.fault ∧ (i ≠ .hlt → u.halted = s.halted) :=
  effectUnder_keeps_control (hu.effect (stackAllows_wrap i s))

theorem Completes.sameRegsBut {i : Instr} {s u : State} (hu : Completes i s u) :
    SameRegsBut (registersWritten i) s u := by
  intro r hr
  cases hu with
  | hlt => rfl
  | prn => rfl
  | ldi imm _ ha => exact s.getReg_setReg_ne imm (by simpa [registersWritten, Fin.ext_iff] using hr)
  | mul _ ha hb => exact s.getReg_setReg_ne _ (by simpa [registersWritten, Fin.ext_iff] using hr)
  | push _ ha => exact s.getReg_setSp_ne _ (by simpa [registersWritten, Fin.ext_iff] using hr)
  | pop _ ha =>
    obtain ⟨hra, hr7⟩ : r ≠ ⟨_, ha⟩ ∧ r ≠ 7 := by simpa [registersWritten, Fin.ext_iff] using hr
    rw [State.getReg_setSp_ne _ _ hr7, State.getReg_setReg_ne _ _ hra]

theorem Completes.read_of_ne_storeAddress {i : Instr} {s u : State} (hu : Completes i s u) {addr : Nat}
    (h : storeAddress i s ≠ some addr) : u.mem.read addr = s.mem.read addr := by
  cases hu with
  | push => exact Memory.read_write_ne _ _ fun e => h (congrArg some e.symm)
  | _ => rfl

/-- An instruction without a store address leaves all of memory. -/
theorem Completes.sameMemory {i : Instr} {s u : State} (hu : Completes i s u) (h : storeAddress i s = none) :
    SameMemory s u :=
  fun _ => hu.read_of_ne_storeAddress (by simp [h])

/-- PUSH leaves all of memory but the cell below the stack pointer. -/
theorem Completes.sameMemoryBut {a : Byte} {s u : State} (hu : Completes (.push a) s u) :
    SameMemoryBut (decrement s.sp).toNat s u :=
  fun _ hne => hu.read_of_ne_storeAddress fun e => hne (Option.some.inj e).symm

theorem Completes.keeps_out {i : Instr} {s u : State} (hu : Completes i s u) (h : ∀ a, i ≠ .prn a) :
    u.out = s.out := by
  cases hu with
  | prn => exact absurd rfl (h _)
  | _ => rfl

theorem Completes.sameControl {i : Instr} {s u : State} (hu : Completes i s u) (hhlt : i ≠ .hlt)
    (hprn : ∀ a, i ≠ .prn a) : SameControl s u :=
  have ⟨_, hfault, hhalted⟩ := hu.keeps_control
  ⟨hhalted hhlt, hfault, hu.keeps_out hprn⟩

/-- Retiring a completed effect advances the pc by the instruction's length and by nothing else. -/
theorem Completes.pc {i : Instr} {s u : State} (hu : Completes i s u) :
    (u.advancePc (instrLength i)).pc = s.pc + BitVec.ofNat 9 (instrLength i) := by
  rw [State.advancePc_pc, hu.keeps_control.1]

end Sys2Proof.Machine

/-! ### The six instructions, each completing, and where they fault -/

namespace Sys2Proof.Machine

/-- What PUSH stores: the named register, and for R7 the stack pointer as already decremented (D10). -/
theorem State.getReg_setSp (s : State) (r : RegIndex) (v : Byte) :
    (s.setSp v).getReg r = if r.val = 7 then v else s.getReg r := by
  split
  · next h => obtain rfl : r = 7 := Fin.ext h; exact s.sp_setSp v
  · next h => exact s.getReg_setSp_ne v fun e => h (congrArg Fin.val e)

theorem State.sp_setReg_ne (s : State) {r : RegIndex} (v : Byte) (h : r.val ≠ 7) : (s.setReg r v).sp = s.sp :=
  s.getReg_setReg_ne v fun e => h (congrArg Fin.val e).symm

theorem State.sp_setReg_seven (s : State) {r : RegIndex} (v : Byte) (h : r.val = 7) : (s.setReg r v).sp = v := by
  obtain rfl : r = 7 := Fin.ext h
  exact s.getReg_setReg_self 7 v

theorem toNat_decrement (sp : Byte) : (decrement sp).toNat = (sp.toNat + 255) % 256 := by
  have hone : (1 : Byte).toNat = 1 := rfl
  rw [decrement, BitVec.toNat_sub, hone]
  omega

theorem toNat_increment (sp : Byte) : (increment sp).toNat = (sp.toNat + 1) % 256 :=
  BitVec.toNat_add sp 1

/-- PUSH completes wherever the policy allows it: the register is at the new top of the stack, and everything but the
stack pointer, that cell and the pc is as before. -/
theorem execUnder_push {policy : SpPolicy} {a : Byte} {s : State} (ha : a.toNat < 8)
    (hsp : stackAllows policy (.push a) s) :
    ∃ t, execUnder policy (.push a) s = .next t ∧ t.sp = decrement s.sp ∧
      t.mem.read (decrement s.sp).toNat = (if a.toNat = 7 then decrement s.sp else s.getReg ⟨a.toNat, ha⟩) ∧
      t.pc = s.pc + 2 ∧ SameRegsBut [7] s t ∧ SameMemoryBut (decrement s.sp).toNat s t ∧ SameControl s t := by
  have hu := Completes.push s ha
  refine ⟨_, hu.execUnder hsp, ?sp, ?cell, hu.pc, hu.sameRegsBut, hu.sameMemoryBut, hu.sameControl nofun nofun⟩
  case sp => simp
  case cell => simp [State.getReg_setSp]

/-- POP completes wherever the policy allows it: the register is the byte at the old stack pointer, which is then
incremented as it stands; everything but the two registers and the pc is as before. -/
theorem execUnder_pop {policy : SpPolicy} {a : Byte} {s : State} (ha : a.toNat < 8)
    (hsp : stackAllows policy (.pop a) s) :
    ∃ t, execUnder policy (.pop a) s = .next t ∧
      (a.toNat ≠ 7 → t.getReg ⟨a.toNat, ha⟩ = s.mem.read s.sp.toNat ∧ t.sp = increment s.sp) ∧
      (a.toNat = 7 → t.sp = increment (s.mem.read s.sp.toNat)) ∧
      t.pc = s.pc + 2 ∧ SameRegsBut [a.toNat, 7] s t ∧ SameMemory s t ∧ SameControl s t := by
  have hu := Completes.pop s ha
  refine ⟨_, hu.execUnder hsp, fun h7 => ⟨?named, ?sp⟩, fun h7 => ?spLoaded, hu.pc, hu.sameRegsBut,
    hu.sameMemory rfl, hu.sameControl nofun nofun⟩
  case named => simp [State.getReg_setSp, h7]
  case sp => simp [State.sp_setReg_ne, h7]
  case spLoaded => simp [State.sp_setReg_seven, h7]

end Sys2Proof.Machine

section
open Sys2Proof Sys2Proof.Machine

/-- Settles O5: HLT has no check to fail. -/
theorem hltSetsTheHaltedFlag : Obligations.HltSetsTheHaltedFlag := by
  intro s
  have hu := Completes.hlt s
  exact ⟨_, hu.exec trivial, rfl, hu.pc, fun r => hu.sameRegsBut r (by simp [registersWritten]), hu.sameMemory rfl,
    hu.keeps_control.2.1, hu.keeps_out nofun⟩

/-- Settles O6: the effect is one register write. -/
theorem ldiWritesTheImmediate : Obligations.LdiWritesTheImmediate := by
  intro a imm s ha
  have hu := Completes.ldi imm s ha
  exact ⟨_, hu.exec trivial, s.getReg_setReg_self _ imm, hu.pc, hu.sameRegsBut, hu.sameMemory rfl,
    hu.sameControl nofun nofun⟩

/-- Settles O7: the effect is one emission. -/
theorem prnEmitsTheRegister : Obligations.PrnEmitsTheRegister := by
  intro a s ha
  have hu := Completes.prn s ha
  obtain ⟨-, hfault, hhalted⟩ := hu.keeps_control
  exact ⟨_, hu.exec trivial, rfl, hu.pc, fun r => hu.sameRegsBut r (by simp [registersWritten]), hu.sameMemory rfl,
    hhalted nofun, hfault⟩

/-- Settles O8: the product of two bytes is their product modulo 256. -/
theorem mulKeepsTheLowByte : Obligations.MulKeepsTheLowByte := by
  intro a b s ha hb
  have hu := Completes.mul s ha hb
  refine ⟨_, hu.exec trivial, ?_, hu.pc, hu.sameRegsBut, hu.sameMemory rfl, hu.sameControl nofun nofun⟩
  simp [BitVec.toNat_mul]

/-- Settles O9: PUSH under `fault` at a stack pointer other than 0. -/
theorem pushStoresTheNamedRegister : Obligations.PushStoresTheNamedRegister := by
  intro a s ha h7 hsp
  have hallows : stackAllows .fault (.push a) s := fun _ => toNat_pos_iff.2 hsp
  obtain ⟨t, hexec, hsp', hcell, hframe⟩ := execUnder_push ha hallows
  rw [if_neg h7] at hcell
  exact ⟨t, exec_eq_execUnder ▸ hexec, hsp', hcell, hframe⟩

/-- Settles O10: the register that PUSH R7 reads is the stack pointer it has just written. -/
theorem pushOfStackPointerStoresDecremented : Obligations.PushOfStackPointerStoresDecremented := by
  intro s hsp
  have hallows : stackAllows .fault (.push 0x07) s := fun _ => toNat_pos_iff.2 hsp
  obtain ⟨t, hexec, hsp', hcell, hframe⟩ := execUnder_push (by decide) hallows
  exact ⟨t, exec_eq_execUnder ▸ hexec, hsp', hcell, hframe⟩

/-- Settles O11: below 0xF4 the increment does not wrap. -/
theorem popLoadsTheNamedRegister : Obligations.PopLoadsTheNamedRegister := by
  intro a s ha h7 hsp
  have hallows : stackAllows .fault (.pop a) s := fun _ => hsp
  obtain ⟨t, hexec, hother, -, hframe⟩ := execUnder_pop ha hallows
  obtain ⟨hreg, hsp'⟩ := hother h7
  refine ⟨t, exec_eq_execUnder ▸ hexec, hreg, ?_, hframe⟩
  rw [hsp', toNat_increment]
  omega

/-- Settles O12: the register that POP R7 increments is the one it has just loaded. -/
theorem popIntoStackPointerIncrementsLoaded : Obligations.PopIntoStackPointerIncrementsLoaded := by
  intro s hsp
  have hallows : stackAllows .fault (.pop 0x07) s := fun _ => hsp
  obtain ⟨t, hexec, -, hseven, hpc, hregs, hframe⟩ := execUnder_pop (by decide) hallows
  refine ⟨t, exec_eq_execUnder ▸ hexec, ?_, hpc, fun r hr => hregs r (by simpa using hr), hframe⟩
  rw [hseven rfl, toNat_increment]

/-- Settles O13: the low byte of the exact product is the product of bytes; the other selectors are refused by
definition. -/
theorem aluMultipliesOrRefuses : Obligations.AluMultipliesOrRefuses := by
  refine fun a b => ⟨⟨_, rfl, BitVec.toNat_ofNat .., ?_⟩, fun code => rfl⟩
  rw [BitVec.ofNat_mul, BitVec.ofNat_toNat, BitVec.ofNat_toNat, BitVec.setWidth_eq, BitVec.setWidth_eq]

/-- Settles O14: the first operand that names no register is refused. -/
theorem registerOperandOutOfRangeFaults : Obligations.RegisterOperandOutOfRangeFaults := by
  refine fun a b s => ⟨fun ha i hi => (Refuses.operand ?first).exec, fun ha hb => (Refuses.operand ?second).exec⟩
  case first => obtain rfl | rfl | rfl | rfl | rfl := hi <;> simp [registerOperands, isRegister, ha]
  case second => simp [registerOperands, isRegister, ha, hb]

/-- Settles O15: with a legal operand the stack pointer's check is the one that refuses. -/
theorem stackPointerBoundariesFault : Obligations.StackPointerBoundariesFault := by
  intro a s ha
  have hwf : isRegister a = true := isRegister_iff.2 ha
  refine ⟨fun hsp => ?push, fun hsp => ?pop⟩
  case push =>
    have hno : ¬ stackAllows .fault (.push a) s := not_stackAllows.2 ⟨rfl, .inl ⟨⟨a, rfl⟩, hsp⟩⟩
    have hrefuses := Refuses.stack (i := .push a) hwf hno
    rw [hsp] at hrefuses
    exact hrefuses.exec
  case pop =>
    have hno : ¬ stackAllows .fault (.pop a) s := not_stackAllows.2 ⟨rfl, .inr ⟨⟨a, rfl⟩, hsp⟩⟩
    exact (Refuses.stack (i := .pop a) hwf hno).exec

/-- Settles O16: the completing effects and the refusals divide the states between them. -/
theorem completesExactlyWhenChecksPass : Obligations.CompletesExactlyWhenChecksPass := by
  intro policy i s
  obtain ⟨hwf, hsp, u, hu⟩ | ⟨hno, c, hc⟩ := completes_or_refuses policy i s
  · exact ⟨fun _ => ⟨_, hu.execUnder hsp, hu.pc, hu.keeps_control.2.1⟩, fun hno => absurd ⟨hwf, hsp⟩ hno⟩
  · refine ⟨fun hyes => absurd hyes hno, fun _ => ?_⟩
    cases hc with
    | operand h => exact ⟨_, _, (Refuses.operand h).execUnder, .inl rfl⟩
    | stack hwf hsp => exact ⟨_, _, (Refuses.stack hwf hsp).execUnder, .inr rfl⟩

/-- Settles O17: a completed effect has its frame, and a refusal writes only the latch. -/
theorem everyInstructionFrame : Obligations.EveryInstructionFrame := by
  intro i s t h
  obtain ⟨u, hu, -, rfl⟩ | ⟨c, -, rfl⟩ := exec_completes_or_refuses h
  · obtain ⟨-, hfault, hhalted⟩ := hu.keeps_control
    exact ⟨hu.sameRegsBut, fun _ => hu.read_of_ne_storeAddress, hhalted, hu.keeps_out, .inl hfault⟩
  · exact ⟨fun _ _ => rfl, fun _ _ => rfl, fun _ => rfl, fun _ => rfl, .inr ⟨c, rfl⟩⟩

end

/-! ### A register that an instruction does not read has no influence (`10_state.md` R15) -/

namespace Sys2Proof.Machine

theorem State.setReg_setReg_self (s : State) (r : RegIndex) (v w : Byte) :
    (s.setReg r v).setReg r w = s.setReg r w := by
  simp [State.setReg]

theorem State.setReg_comm (s : State) {q r : RegIndex} (v w : Byte) (h : q ≠ r) :
    (s.setReg r v).setReg q w = (s.setReg q w).setReg r v := by
  have h' : r.val ≠ q.val := fun e => h (Fin.ext e.symm)
  simp [State.setReg, Vector.set_comm _ _ h']

/-- Writing a register after `v` was put in register `r`: as if `v` had never been there, or `v` is still there. -/
theorem State.setReg_after_setReg (s : State) (q r : RegIndex) (v w : Byte) :
    (s.setReg r v).setReg q w = s.setReg q w ∨ (s.setReg r v).setReg q w = (s.setReg q w).setReg r v := by
  by_cases h : q = r
  · exact .inl (h ▸ s.setReg_setReg_self q v w)
  · exact .inr (s.setReg_comm v w h)

theorem State.setSp_setReg_ne (s : State) {r : RegIndex} (v w : Byte) (h : r.val ≠ 7) :
    (s.setReg r v).setSp w = (s.setSp w).setReg r v :=
  s.setReg_comm v w fun e => h (congrArg Fin.val e).symm

/-- With `v` in a register that it does not read an instruction completes as before; `v` is overwritten or still there. -/
theorem Completes.setReg {i : Instr} {s u : State} {r : RegIndex} (v : Byte) (hr : r.val ∉ registersRead i)
    (hu : Completes i s u) : Completes i (s.setReg r v) u ∨ Completes i (s.setReg r v) (u.setReg r v) := by
  cases hu with
  | hlt => exact .inr (.hlt (s.setReg r v))
  | ldi imm _ ha =>
    have hu := Completes.ldi imm (s.setReg r v) ha
    obtain h | h := s.setReg_after_setReg ⟨_, ha⟩ r v imm <;> rw [h] at hu
    · exact .inl hu
    · exact .inr hu
  | prn _ ha =>
    have hra : ⟨_, ha⟩ ≠ r := fun e => hr (by simp [registersRead, ← e])
    have hu := Completes.prn (s.setReg r v) ha
    rw [s.getReg_setReg_ne v hra] at hu
    exact .inr hu
  | mul _ ha hb =>
    have hra : ⟨_, ha⟩ ≠ r := fun e => hr (by simp [registersRead, ← e])
    have hrb : ⟨_, hb⟩ ≠ r := fun e => hr (by simp [registersRead, ← e])
    have hu := Completes.mul (s.setReg r v) ha hb
    rw [s.getReg_setReg_ne v hra, s.getReg_setReg_ne v hrb, s.setReg_comm v _ hra] at hu
    exact .inr hu
  | push _ ha =>
    have hra : ⟨_, ha⟩ ≠ r := fun e => hr (by simp [registersRead, ← e])
    have hr7 : r.val ≠ 7 := fun e => hr (by simp [registersRead, e])
    have hu := Completes.push (s.setReg r v) ha
    rw [State.sp_setReg_ne s v hr7, s.setSp_setReg_ne v _ hr7, State.getReg_setReg_ne _ v hra] at hu
    exact .inr hu
  | pop _ ha =>
    have hr7 : r.val ≠ 7 := fun e => hr (by simp [registersRead, e])
    have hu := Completes.pop (s.setReg r v) ha
    rw [State.sp_setReg_ne s v hr7] at hu
    obtain h | h := s.setReg_after_setReg ⟨_, ha⟩ r v (s.mem.read s.sp.toNat) <;> rw [State.setReg_mem, h] at hu
    · exact .inl hu
    · rw [State.sp_setReg_ne _ v hr7, State.setSp_setReg_ne _ v _ hr7] at hu
      exact .inr hu

/-- Only the instructions that read the stack pointer are held to it. -/
theorem seven_mem_registersRead {policy : SpPolicy} {i : Instr} {s : State} (h : ¬ stackAllows policy i s) :
    7 ∈ registersRead i := by
  obtain ⟨-, ⟨⟨a, rfl⟩, -⟩ | ⟨⟨a, rfl⟩, -⟩⟩ := not_stackAllows.1 h <;> simp [registersRead]

theorem stackAllows_setReg {policy : SpPolicy} {i : Instr} {s : State} {r : RegIndex} (v : Byte)
    (hr : r.val ∉ registersRead i) : stackAllows policy i (s.setReg r v) ↔ stackAllows policy i s := by
  cases i with
  | push a => rw [stackAllows, stackAllows, s.sp_setReg_ne v fun e => hr (by simp [registersRead, e])]
  | pop a => rw [stackAllows, stackAllows, s.sp_setReg_ne v fun e => hr (by simp [registersRead, e])]
  | _ => rfl

theorem Refuses.setReg {policy : SpPolicy} {i : Instr} {s : State} {c : Cause} {r : RegIndex} (v : Byte)
    (hr : r.val ∉ registersRead i) (hc : Refuses policy i s c) : Refuses policy i (s.setReg r v) c := by
  cases hc with
  | operand h => exact .operand h
  | stack hwf hsp =>
    have hr7 : r.val ≠ 7 := fun e => hr (e ▸ seven_mem_registersRead hsp)
    rw [← State.sp_setReg_ne s v hr7]
    exact .stack hwf fun h => hsp ((stackAllows_setReg v hr).1 h)

/-- An instruction begun with `v` in a register that it does not read ends in the same next state, but for that register
where it still holds `v`. -/
theorem exec_setReg {i : Instr} {s t : State} {r : RegIndex} (v : Byte) (hr : r.val ∉ registersRead i)
    (h : exec i s = .next t) : exec i (s.setReg r v) = .next t ∨ exec i (s.setReg r v) = .next (t.setReg r v) := by
  obtain ⟨u, hu, hsp, rfl⟩ | ⟨c, hc, rfl⟩ := exec_completes_or_refuses h
  · have hsp' := (stackAllows_setReg v hr).2 hsp
    exact (hu.setReg v hr).imp (·.exec hsp') (·.exec hsp')
  · exact .inr (hc.setReg v hr).exec

end Sys2Proof.Machine

section
open Sys2Proof Sys2Proof.Machine

/-- Settles O18: the next state is the same, or differs only in the register that was changed and not written. -/
theorem unreadRegistersHaveNoInfluence : Obligations.UnreadRegistersHaveNoInfluence := by
  intro i s t r v hr h
  obtain h' | h' := exec_setReg v hr h
  · exact ⟨t, h', rfl, rfl, rfl, rfl, rfl, fun _ _ => rfl, .inl rfl⟩
  · exact ⟨_, h', rfl, rfl, rfl, rfl, rfl, fun _ hq => t.getReg_setReg_ne v hq, .inr (t.getReg_setReg_self r v)⟩

end

/-! ### The cycle: what a step does in status Running (`40_fetch_decode_dispatch.md` R71 to R78) -/

namespace Sys2Proof.Machine

/-- In status Running the fetched instruction is what a step runs, and nothing else. -/
theorem step_of_nextInstr {s : State} {i : Instr} (hr : s.status = .running) (hi : s.nextInstr = some i) :
    step s = exec i s := by
  obtain ⟨hp, hd⟩ := State.nextInstr_eq_some.1 hi
  rw [step, State.stepWith_running exec hr]
  simp [State.cycle, State.fetchInstr, State.fetchBytes_ok hp, hd]

theorem step_of_pc_past_end {s : State} (hr : s.status = .running) (hp : 254 ≤ s.pc.toNat) :
    step s = .next (s.raise (.outOfBoundsAccess .mem (max 256 s.pc.toNat))) := by
  rw [step, State.stepWith_running exec hr]
  simp [State.cycle, State.fetchInstr, State.fetchBytes_error hp]

theorem step_of_unknown_opcode {s : State} (hr : s.status = .running) (hp : s.pc.toNat ≤ 253)
    (hop : decodeOpcode (s.mem.read s.pc.toNat) = none) :
    step s = .next (s.raise (.illegalInstruction (s.mem.read s.pc.toNat))) := by
  rw [step, State.stepWith_running exec hr]
  simp [State.cycle, State.fetchInstr, State.fetchBytes_ok hp, decodeFetched_eq_none.2 hop]

/-- A step answers a next state if every instruction does. -/
theorem State.stepWith_next (s : State) {d : Instr → State → Host.Outcome State Fault Refusal}
    (hd : ∀ i, ∃ t, d i s = .next t) : ∃ t, s.stepWith d = .next t := by
  by_cases hr : s.status = .running
  · rw [State.stepWith_running d hr, State.cycle]
    cases s.fetchInstr with
    | ok i => exact hd i
    | error c => exact ⟨_, rfl⟩
  · exact ⟨s, State.stepWith_terminal d hr⟩

theorem stepUnder_next (policy : SpPolicy) (s : State) : ∃ t, stepUnder policy s = .next t :=
  s.stepWith_next fun i => execUnder_eq_retire policy i s ▸ s.retire_next _ _

theorem step_next (s : State) : ∃ t, step s = .next t := step_eq_stepUnder s ▸ stepUnder_next _ s

/-- The advance of a completed instruction does not wrap in a cycle (R75). -/
theorem Completes.pc_toNat {i : Instr} {s u : State} (hu : Completes i s u) (hp : s.pc.toNat ≤ 253) :
    (u.advancePc (instrLength i)).pc.toNat = s.pc.toNat + instrLength i := by
  have hlen : instrLength i ≤ 3 := instrLength_le_three i
  rw [hu.pc, BitVec.toNat_add, BitVec.toNat_ofNat]
  omega

/-! #### The causes that a state may raise (R131 to R133) -/

/-- What an instruction refuses is among the causes listed for the state. -/
theorem Refuses.mayRaise {policy : SpPolicy} {i : Instr} {s : State} {c : Cause} (hp : s.pc.toNat ≤ 253)
    (hc : Refuses policy i s c) : s.mayRaise c = true := by
  cases hc with
  | @operand a h =>
    have ha : 8 ≤ a.toNat := by simpa [isRegister] using List.find?_some h
    have ha' : a.toNat ≤ 255 := Nat.le_of_lt_succ a.isLt
    simp [State.mayRaise, hp, ha, ha']
  | stack hwf hsp =>
    have hbound : s.sp.toNat = 0 ∨ 0xF4 ≤ s.sp.toNat := by
      obtain ⟨-, ⟨-, h⟩ | ⟨-, h⟩⟩ := not_stackAllows.1 hsp
      · exact .inl (congrArg BitVec.toNat h)
      · exact .inr h
    simp [State.mayRaise, hp, hbound]

/-- Latching a fault does not change what the state may raise: the pc, the memory and the stack pointer are as before. -/
theorem State.mayRaise_raise (s : State) (c d : Cause) : (s.raise c).mayRaise d = s.mayRaise d := by
  cases d <;> rfl

/-- Everything a step does in status Running: an instruction completes, or a cause that the state may raise is
latched. -/
theorem step_running_cases {s t : State} (hr : s.status = .running) (hp : s.pc.toNat ≤ 256)
    (h : step s = .next t) :
    (∃ i u, s.nextInstr = some i ∧ Completes i s u ∧ t = u.advancePc (instrLength i)) ∨
    (∃ c, s.mayRaise c = true ∧ t = s.raise c) := by
  obtain ⟨hne, -⟩ | ⟨i, -, hp, hd, he⟩ | ⟨-, hp, hop, rfl⟩ | ⟨-, hp', rfl⟩ := State.stepWith_cases h
  · exact absurd hr hne
  · obtain ⟨u, hu, -, rfl⟩ | ⟨c, hc, rfl⟩ := exec_completes_or_refuses he
    · exact .inl ⟨i, u, State.nextInstr_eq_some.2 ⟨hp, hd⟩, hu, rfl⟩
    · exact .inr ⟨c, hc.mayRaise hp, rfl⟩
  · exact .inr ⟨_, by simp [State.mayRaise, hp, hop], rfl⟩
  · exact .inr ⟨_, by simp [State.mayRaise, hp, hp'], rfl⟩

end Sys2Proof.Machine

section
open Sys2Proof Sys2Proof.Machine

/-- Settles O19: the fetch reads those three bytes, and `exec` is the cycle's dispatcher. -/
theorem stepRunsTheDecodedInstruction : Obligations.StepRunsTheDecodedInstruction :=
  fun _ _ hr hp hd => step_of_nextInstr hr (State.nextInstr_eq_some.2 ⟨hp, hd⟩)

/-- Settles O21: one of the three reads of the fetch is past the end, and it comes before the lookup. -/
theorem fetchPastTheEndFaults : Obligations.FetchPastTheEndFaults :=
  fun _ hr hp => step_of_pc_past_end hr hp

/-- Settles O22: the listed bytes are the opcodes of the six mnemonics. -/
theorem unknownOpcodeFaults : Obligations.UnknownOpcodeFaults := by
  intro s hr hp hop
  refine step_of_unknown_opcode hr hp (decodeOpcode_eq_none.2 fun m hm => hop ?_)
  rw [hm]
  cases m <;> decide

/-- Settles O24: a step that ends with the latch set completed no instruction. -/
theorem faultingCycleIsPrecise : Obligations.FaultingCycleIsPrecise := by
  intro s t hp hr h hf
  obtain ⟨i, u, -, hu, rfl⟩ | ⟨c, hc, rfl⟩ := step_running_cases hr hp h
  · exact absurd (hu.keeps_control.2.1.trans ((State.status_running_iff s).1 hr).1) hf
  · exact ⟨c, rfl, hc⟩

/-- Settles O27: every arm retires to a next state, and so does every fault of the fetch. -/
theorem stepAlwaysAnswersNext : Obligations.StepAlwaysAnswersNext :=
  fun s => ⟨step_next s, fun policy => stepUnder_next policy s⟩

/-- Settles O28: of the completing effects only PUSH's has a store address. -/
theorem memoryChangesOnlyByPush : Obligations.MemoryChangesOnlyByPush := by
  intro s t addr h hne
  obtain ⟨-, rfl⟩ | ⟨i, -, hi, he⟩ | ⟨c, -, -, rfl⟩ := step_cases h
  · exact absurd rfl hne
  · obtain ⟨u, hu, -, rfl⟩ | ⟨c, -, rfl⟩ := exec_completes_or_refuses he
    · have hstore : storeAddress i s = some addr := by
        by_contra hno
        exact hne (hu.read_of_ne_storeAddress hno)
      cases hu with
      | @push a _ ha => exact ⟨a, hi, ha, (Option.some.inj hstore).symm, s.sp_setSp _⟩
      | _ => cases hstore
    · exact absurd rfl hne
  · exact absurd rfl hne

/-- Settles O29: of the completing effects only PRN's emits. -/
theorem outputGrowsOnlyByPrn : Obligations.OutputGrowsOnlyByPrn := by
  intro s t h
  obtain ⟨-, rfl⟩ | ⟨i, -, hi, he⟩ | ⟨c, -, -, rfl⟩ := step_cases h
  · exact .inl rfl
  · obtain ⟨u, hu, -, rfl⟩ | ⟨c, -, rfl⟩ := exec_completes_or_refuses he
    · cases hu with
      | @prn a _ ha => exact .inr ⟨a, ha, hi, rfl⟩
      | _ => exact .inl rfl
    · exact .inl rfl
  · exact .inl rfl

/-- Settles O30: the fetch after PUSH reads the cell that PUSH wrote. -/
theorem pushedByteIsFetchedNext : Obligations.PushedByteIsFetchedNext := by
  intro a s ha hpc hsp
  have hallows : stackAllows .fault (.push a) s := fun _ => by omega
  obtain ⟨t, hexec, -, hcell, htpc, -⟩ := execUnder_push ha hallows
  have hpc' : t.pc.toNat = s.pc.toNat + 2 := by
    rw [htpc, BitVec.toNat_add, show (2 : Pc).toNat = 2 from rfl]
    omega
  have htop : (decrement s.sp).toNat = t.pc.toNat := by
    rw [toNat_decrement]
    omega
  rw [htop] at hcell
  exact ⟨t, _, _, exec_eq_execUnder ▸ hexec, hpc', hcell ▸ State.fetchBytes_ok (by omega)⟩

end

/-! ### The invariant -/

namespace Sys2Proof.Machine

/-- A completed effect leaves memory canonical. -/
theorem Completes.mem_wf {i : Instr} {s u : State} (hu : Completes i s u) (hwf : s.mem.wf = true) :
    u.mem.wf = true := by
  cases hu with
  | push => exact Memory.wf_write _ (decrement s.sp).isLt hwf
  | _ => exact hwf

/-- A state in status Running satisfies the clauses on halting and faulting, which speak of the terminal statuses. -/
theorem State.inv_of_running {s : State} (hr : s.status = .running) (hwf : s.mem.wf = true)
    (hp : s.pc.toNat ≤ 256) : s.Inv := by
  obtain ⟨hf, hh⟩ := (State.status_running_iff s).1 hr
  exact ⟨hwf, hp, by simp [State.haltConsistent, hh], by simp [State.latchConsistent, hf]⟩

/-- Latching a cause that a running state may raise gives a precise fault. -/
theorem State.inv_raise {s : State} {c : Cause} (hr : s.status = .running) (hc : s.mayRaise c = true)
    (hwf : s.mem.wf = true) (hp : s.pc.toNat ≤ 256) : (s.raise c).Inv := by
  obtain ⟨-, hh⟩ := (State.status_running_iff s).1 hr
  exact ⟨hwf, hp, by simp [State.haltConsistent, hh], by simp [State.latchConsistent, State.mayRaise_raise, hc]⟩

/-- HLT leaves the machine halted just after its own opcode byte. -/
theorem State.inv_of_halt {s : State} (hr : s.status = .running) (hi : s.nextInstr = some .hlt)
    (hwf : s.mem.wf = true) : (s.setHalted.advancePc 1).Inv := by
  obtain ⟨hf, -⟩ := (State.status_running_iff s).1 hr
  obtain ⟨hp, hd⟩ := State.nextInstr_eq_some.1 hi
  have hop : s.mem.read s.pc.toNat = 0x01 := opcode_of_decodeFetched hd
  have hpc : (s.setHalted.advancePc 1).pc.toNat = s.pc.toNat + 1 := (Completes.hlt s).pc_toNat hp
  refine ⟨hwf, by omega, ?halt, by simp [State.latchConsistent, hf]⟩
  case halt =>
    rw [State.haltConsistent, hpc]
    simp [hf, hop]
    omega

/-- An instruction other than HLT that completes leaves the machine running, at most three bytes on. -/
theorem Completes.inv {i : Instr} {s u : State} (hu : Completes i s u) (hne : i ≠ .hlt) (hr : s.status = .running)
    (hi : s.nextInstr = some i) (hwf : s.mem.wf = true) : (u.advancePc (instrLength i)).Inv := by
  obtain ⟨hf, hh⟩ := (State.status_running_iff s).1 hr
  obtain ⟨-, hfault, hhalted⟩ := hu.keeps_control
  have hrun : (u.advancePc (instrLength i)).status = .running :=
    (State.status_running_iff _).2 ⟨hfault.trans hf, (hhalted hne).trans hh⟩
  refine State.inv_of_running hrun (hu.mem_wf hwf) ?_
  have hlen : instrLength i ≤ 3 := instrLength_le_three i
  have hp : s.pc.toNat ≤ 253 := (State.nextInstr_eq_some.1 hi).1
  rw [hu.pc_toNat hp]
  omega

end Sys2Proof.Machine

section
open Sys2Proof Sys2Proof.Machine

/-- Settles O34: a step does nothing, or completes HLT, or completes another instruction, or latches a cause. -/
theorem stepKeepsTheInvariant : Obligations.StepKeepsTheInvariant := by
  intro s t hinv h
  by_cases hr : s.status = .running
  · obtain ⟨hwf, hp, -, -⟩ := hinv
    obtain ⟨i, u, hi, hu, rfl⟩ | ⟨c, hc, rfl⟩ := step_running_cases hr hp h
    · by_cases hne : i = .hlt
      · subst hne
        cases hu
        exact State.inv_of_halt hr hi hwf
      · exact hu.inv hne hr hi hwf
    · exact State.inv_raise hr hc hwf hp
  · obtain rfl : s = t := Host.Outcome.next.inj ((State.stepWith_terminal exec hr).symm.trans h)
    exact hinv

/-- Settles O35: at reset memory is empty, the pc is 0 and neither terminal status is reached. -/
theorem resetMeetsTheInvariant : Obligations.ResetMeetsTheInvariant :=
  State.inv_of_running (s := State.reset) rfl reset_mem_wf (by decide)

end

/-! ### Runs (`70_reset_and_hazards.md` R163 to R165) -/

namespace Sys2Proof.Machine

theorem core_run_of_terminal {s : State} (h : s.status ≠ .running) (n : Nat) :
    Host.Core.run core n s = .next s :=
  core_run_of_step_self (State.stepWith_terminal exec h) n

/-- Only HLT is a single byte. -/
theorem two_le_instrLength {i : Instr} (h : i ≠ .hlt) : 2 ≤ instrLength i := by
  cases i with
  | hlt => exact absurd rfl h
  | _ => simp [instrLength, mnemonicOf, lengthOf]

/-- An instruction ends in a terminal status or moves the pc on by two bytes at least. -/
theorem exec_terminal_or_advances {i : Instr} {s t : State} (hp : s.pc.toNat ≤ 253) (h : exec i s = .next t) :
    t.status ≠ .running ∨ s.pc.toNat + 2 ≤ t.pc.toNat := by
  obtain ⟨u, hu, -, rfl⟩ | ⟨c, -, rfl⟩ := exec_completes_or_refuses h
  · by_cases hi : i = .hlt
    · subst hi
      cases hu
      exact .inl (by simp [State.status_running_iff])
    · rw [hu.pc_toNat hp]
      exact .inr (Nat.add_le_add_left (two_le_instrLength hi) _)
  · exact .inl (by simp [State.status_running_iff])

/-- A step ends in a terminal status or moves the pc, which stood at 253 at most, on by two bytes at least. -/
theorem step_terminal_or_advances {s t : State} (h : step s = .next t) :
    t.status ≠ .running ∨ (s.pc.toNat ≤ 253 ∧ s.pc.toNat + 2 ≤ t.pc.toNat) := by
  obtain ⟨hne, rfl⟩ | ⟨i, -, hi, he⟩ | ⟨c, -, -, rfl⟩ := step_cases h
  · exact .inl hne
  · have hp := (State.nextInstr_eq_some.1 hi).1
    exact (exec_terminal_or_advances hp he).imp_right fun hadv => ⟨hp, hadv⟩
  · exact .inl (by simp [State.status_running_iff])

/-- With `2 n` bytes to go to address 254 a run of `n + 1` steps has ended. -/
theorem core_run_ends {n : Nat} {s : State} (hn : 254 ≤ s.pc.toNat + 2 * n) :
    ∃ t, Host.Core.run core (n + 1) s = .next t ∧ t.status ≠ .running := by
  induction n generalizing s with
  | zero =>
    obtain ⟨t, h⟩ := step_next s
    obtain hend | ⟨hp, -⟩ := step_terminal_or_advances h
    · exact ⟨t, core_run_succ 0 h, hend⟩
    · omega
  | succ n ih =>
    obtain ⟨t, h⟩ := step_next s
    rw [core_run_succ _ h]
    obtain hend | ⟨-, hadv⟩ := step_terminal_or_advances h
    · exact ⟨t, core_run_of_terminal hend _, hend⟩
    · exact ih (by omega)

/-- Steps in a terminal status can be left out: the end of a run is reached by steps from status Running alone. -/
theorem core_run_from_running {N : Nat} {s t : State} (h : Host.Core.run core N s = .next t) :
    ∃ n, n ≤ N ∧ Host.Core.run core n s = .next t ∧
      ∀ (k : Nat) (u : State), k < n → Host.Core.run core k s = .next u → u.status = .running := by
  induction N generalizing s with
  | zero => exact ⟨0, le_rfl, h, fun k u hk => absurd hk (Nat.not_lt_zero k)⟩
  | succ N ih =>
    by_cases hr : s.status = .running
    · obtain ⟨v, hv⟩ := step_next s
      obtain ⟨n, hn, hrun, hbefore⟩ := ih (core_run_succ N hv ▸ h)
      refine ⟨n + 1, Nat.succ_le_succ hn, (core_run_succ n hv).trans hrun, fun k u hk hu => ?_⟩
      cases k with
      | zero => exact Host.Outcome.next.inj hu ▸ hr
      | succ k => exact hbefore k u (Nat.lt_of_succ_lt_succ hk) (core_run_succ k hv ▸ hu)
    · have hst : s = t := Host.Outcome.next.inj ((core_run_of_terminal hr _).symm.trans h)
      exact ⟨0, Nat.zero_le _, hst ▸ rfl, fun k u hk => absurd hk (Nat.not_lt_zero k)⟩

end Sys2Proof.Machine

section
open Sys2Proof Sys2Proof.Machine

/-- Settles O36: 127 advances by two bytes reach address 254, where the fetch faults. -/
theorem everyRunEndsWithin128Cycles : Obligations.EveryRunEndsWithin128Cycles :=
  fun _ => core_run_ends (n := 127) (by omega)

/-- Settles O41: the run of 128 steps ends where the machine first left status Running, and reports that state. -/
theorem runIsRepeatedStep : Obligations.RunIsRepeatedStep := by
  intro h
  obtain ⟨t, hrun, ht⟩ := everyRunEndsWithin128Cycles h.machine
  refine ⟨t, ?_, ht, core_run_from_running hrun⟩
  rw [hostRun, hrun]
  rfl

/-- Settles O37: by evaluation of the reset state. -/
theorem resetHasTheSourceValues : Obligations.ResetHasTheSourceValues :=
  ⟨rfl, rfl, rfl, rfl⟩

/-- Settles O38: the reset state lists no cell, and 0x00 is no opcode. -/
theorem resetHasTheDecidedValues : Obligations.ResetHasTheDecidedValues :=
  ⟨by decide, fun _ => rfl, rfl, rfl, step_of_unknown_opcode rfl (by decide) (by decide)⟩

end

/-! ### The stack under either policy (`45_stack_push_pop.md` R116, R119) -/

namespace Sys2Proof.Machine

theorem increment_decrement (sp : Byte) : increment (decrement sp) = sp := BitVec.sub_add_cancel sp 1

/-- Only the stack pointer's check depends on the policy. -/
theorem execUnder_fault_or (i : Instr) (s : State) :
    execUnder .fault i s = execUnder .wrap i s ∨
      execUnder .fault i s = .next (s.raise (.outOfBoundsAccess .stack s.sp.toNat)) := by
  obtain ⟨-, hsp, u, hu⟩ | ⟨-, c, hc⟩ := completes_or_refuses .fault i s
  · exact .inl ((hu.execUnder hsp).trans (hu.execUnder (stackAllows_wrap i s)).symm)
  · cases hc with
    | operand h => exact .inl ((Refuses.operand h).execUnder.trans (Refuses.operand h).execUnder.symm)
    | stack hwf hsp => exact .inr (Refuses.stack hwf hsp).execUnder

/-- POP of the register that PUSH has just pushed gives every register its value back. -/
theorem regs_after_push_pop {a : Byte} {s t u : State} (ha : a.toNat < 8) (htsp : t.sp = decrement s.sp)
    (hcell : t.mem.read t.sp.toNat = if a.toNat = 7 then decrement s.sp else s.getReg ⟨a.toNat, ha⟩)
    (ht : SameRegsBut [7] s t)
    (hother : a.toNat ≠ 7 → u.getReg ⟨a.toNat, ha⟩ = t.mem.read t.sp.toNat ∧ u.sp = increment t.sp)
    (hseven : a.toNat = 7 → u.sp = increment (t.mem.read t.sp.toNat))
    (hu : SameRegsBut [a.toNat, 7] t u) : u.regs = s.regs := by
  have husp : u.sp = s.sp := by
    by_cases h7 : a.toNat = 7
    · rw [hseven h7, hcell, if_pos h7, increment_decrement]
    · rw [(hother h7).2, htsp, increment_decrement]
  refine State.regs_ext fun r => ?_
  by_cases hr7 : r = 7
  · exact hr7 ▸ husp
  · by_cases hra : r = ⟨a.toNat, ha⟩
    · have h7 : a.toNat ≠ 7 := fun e => hr7 (hra.trans (Fin.ext e))
      rw [hra, (hother h7).1, hcell, if_neg h7]
    · have hru : r.val ∉ [a.toNat, 7] := by simpa [Fin.ext_iff] using And.intro hra hr7
      have hrt : r.val ∉ [7] := by simpa [Fin.ext_iff] using hr7
      rw [hu r hru, ht r hrt]

end Sys2Proof.Machine

section
open Sys2Proof Sys2Proof.Machine

/-- Settles O31: POP reads the cell that PUSH wrote, and PUSH leaves a stack pointer that POP allows. -/
theorem pushThenPopRestoresRegisters : Obligations.PushThenPopRestoresRegisters := by
  intro policy a s ha hdomain
  obtain ⟨t, hpush, htsp, hcell, htpc, htregs, htmem, hthalted, htfault, htout⟩ :=
    execUnder_push (policy := policy) ha fun hp => (hdomain hp).1
  have hallows : stackAllows policy (.pop a) t := by
    intro hp
    obtain ⟨hlow, hhigh⟩ := hdomain hp
    rw [htsp, toNat_decrement]
    omega
  obtain ⟨u, hpop, hother, hseven, hupc, huregs, humem, huhalted, hufault, huout⟩ := execUnder_pop ha hallows
  refine ⟨t, u, hpush, hpop, regs_after_push_pop ha htsp (htsp ▸ hcell) htregs hother hseven huregs, ?pc, ?mem,
    huhalted.trans hthalted, hufault.trans htfault, huout.trans htout⟩
  case pc =>
    rw [hupc, htpc, BitVec.add_assoc]
    rfl
  case mem => exact fun addr hne => (humem addr).trans (htmem addr hne)

/-- Settles O32: under `wrap` the stack pointer is always allowed. -/
theorem wrapPolicyWrapsModulo256 : Obligations.WrapPolicyWrapsModulo256 := by
  intro a s ha
  refine ⟨?push, ?pop⟩
  case push =>
    rw [← toNat_decrement]
    obtain ⟨t, hexec, hsp, hrest⟩ := execUnder_push ha (stackAllows_wrap (.push a) s)
    exact ⟨t, hexec, congrArg BitVec.toNat hsp, hrest⟩
  case pop =>
    obtain ⟨t, hexec, hother, hseven, hrest⟩ := execUnder_pop ha (stackAllows_wrap (.pop a) s)
    refine ⟨t, hexec, fun h7 => ?_, fun h7 => ?_, hrest⟩
    · obtain ⟨hreg, hsp⟩ := hother h7
      exact ⟨hreg, by rw [hsp, toNat_increment]⟩
    · rw [hseven h7, toNat_increment]

/-- Settles O33: the two machines share the cycle, and their dispatchers differ only in a refused stack pointer. -/
theorem faultPolicyAgreesUnlessItFaults : Obligations.FaultPolicyAgreesUnlessItFaults := by
  intro s
  rw [step_eq_stepUnder, stepUnder, stepUnder]
  by_cases hr : s.status = .running
  · rw [State.stepWith_running _ hr, State.stepWith_running _ hr, State.cycle, State.cycle]
    cases s.fetchInstr with
    | ok i => exact (execUnder_fault_or i s).imp_right fun h => ⟨hr, h⟩
    | error c => exact .inl rfl
  · rw [State.stepWith_terminal _ hr, State.stepWith_terminal _ hr]
    exact .inl rfl

end

/-! ### Canonical memories are equal when they read alike -/

namespace Sys2Proof.Machine

theorem Memory.read_eq_reset {m : Memory} {a : Nat} (h : ∀ c ∈ m, a < c.1) : m.read a = Config.memReset := by
  induction m with
  | nil => rfl
  | cons c rest ih =>
    have hne : c.1 ≠ a := (h c List.mem_cons_self).ne'
    rw [Memory.read, if_neg hne, ih fun d hd => h d (List.mem_cons_of_mem _ hd)]

theorem Memory.read_cons_self (k : Nat) (v : Byte) (rest : Memory) : Memory.read ((k, v) :: rest) k = v := if_pos rfl

theorem Memory.read_cons_ne {k a : Nat} (v : Byte) (rest : Memory) (h : a ≠ k) :
    Memory.read ((k, v) :: rest) a = Memory.read rest a := if_neg h.symm

/-- The first cell of a canonical memory reads as no unlisted address does, so a canonical memory that reads like it
begins no later. -/
theorem Memory.head_le {k k' : Nat} {v v' : Byte} {rest rest' : Memory} (h : Memory.wf ((k, v) :: rest) = true)
    (h' : Memory.wf ((k', v') :: rest') = true)
    (hread : ∀ a, Memory.read ((k, v) :: rest) a = Memory.read ((k', v') :: rest') a) : k' ≤ k := by
  obtain ⟨-, hv, -, -⟩ := Memory.wf_cons.1 h
  obtain ⟨-, -, hrest', -⟩ := Memory.wf_cons.1 h'
  by_contra hlt
  have hbelow : ∀ c ∈ (k', v') :: rest', k < c.1 := by
    intro c hc
    obtain rfl | hc := List.mem_cons.1 hc
    · exact not_le.1 hlt
    · exact (not_le.1 hlt).trans (hrest' c hc)
  exact hv ((Memory.read_cons_self k v rest).symm.trans ((hread k).trans (Memory.read_eq_reset hbelow)))

/-- A canonical memory with a cell does not read like the empty one. -/
theorem Memory.not_reads_as_nil {k : Nat} {v : Byte} {rest : Memory} (h : Memory.wf ((k, v) :: rest) = true) :
    ¬ ∀ a, Memory.read ((k, v) :: rest) a = Memory.read [] a := by
  intro hread
  obtain ⟨-, hv, -, -⟩ := Memory.wf_cons.1 h
  exact hv ((Memory.read_cons_self k v rest).symm.trans (hread k))

theorem Memory.ext_of_wf {m m' : Memory} (h : m.wf = true) (h' : m'.wf = true) (hread : ∀ a, m.read a = m'.read a) :
    m = m' := by
  induction m generalizing m' with
  | nil =>
    cases m' with
    | nil => rfl
    | cons c' rest' => exact absurd (fun a => (hread a).symm) (Memory.not_reads_as_nil h')
  | cons c rest ih =>
    cases m' with
    | nil => exact absurd hread (Memory.not_reads_as_nil h)
    | cons c' rest' =>
      obtain ⟨k, v⟩ := c
      obtain ⟨k', v'⟩ := c'
      obtain rfl : k = k' := le_antisymm (Memory.head_le h' h fun a => (hread a).symm) (Memory.head_le h h' hread)
      obtain rfl : v = v' := by simpa only [Memory.read_cons_self] using hread k
      obtain ⟨-, -, hall, hrest⟩ := Memory.wf_cons.1 h
      obtain ⟨-, -, hall', hrest'⟩ := Memory.wf_cons.1 h'
      have htails : ∀ a, Memory.read rest a = Memory.read rest' a := by
        intro a
        by_cases ha : a = k
        · rw [ha, Memory.read_eq_reset hall, Memory.read_eq_reset hall']
        · simpa only [Memory.read_cons_ne _ _ ha] using hread a
      rw [ih hrest hrest' htails]

/-! ### Bytes stored in a row (`70_reset_and_hazards.md` R162) -/

/-- A row of bytes that fits is stored at consecutive addresses, each reduced to a byte, and changes nothing else. -/
theorem State.memWriteBytes_ok {bytes : List Nat} {s : State} {addr : Nat} (h : addr + bytes.length ≤ 256) :
    ∃ t, s.memWriteBytes addr bytes = .ok t ∧ t = { s with mem := t.mem } ∧
      (∀ (k : Nat) (hk : k < bytes.length), (t.mem.read (addr + k)).toNat = bytes[k] % 256) ∧
      ∀ a, a < addr ∨ addr + bytes.length ≤ a → t.mem.read a = s.mem.read a := by
  induction bytes generalizing s addr with
  | nil => exact ⟨s, rfl, rfl, fun k hk => absurd hk (Nat.not_lt_zero k), fun _ _ => rfl⟩
  | cons v rest ih =>
    rw [List.length_cons] at h
    obtain ⟨t, ht, hframe, hinside, houtside⟩ :=
      ih (s := s.storeByte addr (BitVec.ofNat 8 v)) (addr := addr + 1) (by omega)
    refine ⟨t, ?stored, hframe, fun k hk => ?inside, fun a ha => ?outside⟩
    case stored =>
      rw [State.memWriteBytes, State.memWrite_ok s v (by omega)]
      exact ht
    case inside =>
      cases k with
      | zero => rw [Nat.add_zero, houtside addr (by omega), State.storeByte_mem, Memory.read_write_self]; rfl
      | succ k =>
        rw [List.getElem_cons_succ, show addr + (k + 1) = addr + 1 + k by omega]
        exact hinside k (Nat.lt_of_succ_lt_succ hk)
    case outside =>
      rw [List.length_cons] at ha
      rw [houtside a (by omega), State.storeByte_mem, Memory.read_write_ne _ _ (by omega)]

/-! ### An instruction placed where the machine fetches -/

theorem State.placeByte_eq_storeByte (s : State) {addr : Nat} (v : Byte) (h : addr < 256) :
    s.placeByte addr v = s.storeByte addr v := by
  simp [State.placeByte, State.memWrite_ok s v.toNat h]

theorem State.placeFetched_eq {s : State} (op a b : Byte) (hp : s.pc.toNat ≤ 253) :
    s.placeFetched op a b =
      ((s.storeByte s.pc.toNat op).storeByte (s.pc.toNat + 1) a).storeByte (s.pc.toNat + 2) b := by
  simp only [State.placeFetched, State.placeByte_eq_storeByte _ _ (show s.pc.toNat < 256 by omega),
    State.placeByte_eq_storeByte _ _ (show s.pc.toNat + 1 < 256 by omega),
    State.placeByte_eq_storeByte _ _ (show s.pc.toNat + 2 < 256 by omega)]

/-- The three placed bytes are what the next cycle fetches. -/
theorem State.nextInstr_placeFetched {s : State} (op a b : Byte) (hp : s.pc.toNat ≤ 253) :
    (s.placeFetched op a b).nextInstr = decodeFetched op a b := by
  rw [State.placeFetched_eq op a b hp]
  simp [State.nextInstr, hp]

theorem State.placeFetched_frame {s : State} (op a b : Byte) (hp : s.pc.toNat ≤ 253) :
    s.placeFetched op a b = { s with mem := (s.placeFetched op a b).mem } := by
  rw [State.placeFetched_eq op a b hp]
  rfl

theorem State.read_placeFetched {s : State} (op a b : Byte) (hp : s.pc.toNat ≤ 253) {addr : Nat}
    (h : addr < s.pc.toNat ∨ s.pc.toNat + 2 < addr) : (s.placeFetched op a b).mem.read addr = s.mem.read addr := by
  rw [State.placeFetched_eq op a b hp]
  simp only [State.storeByte_mem]
  rw [Memory.read_write_ne _ _ (by omega), Memory.read_write_ne _ _ (by omega), Memory.read_write_ne _ _ (by omega)]

end Sys2Proof.Machine

section
open Sys2Proof Sys2Proof.Machine

/-- Settles O39: by induction on the rising cells. -/
theorem canonicalMemoriesAreExtensional : Obligations.CanonicalMemoriesAreExtensional :=
  fun _ _ => Memory.ext_of_wf

/-- Settles O40: on a constructed machine the bytes are stored in a row from address 0, and the stage decides the rest. -/
theorem loadPlacesTheProgram : Obligations.LoadPlacesTheProgram := by
  refine ⟨fun bytes hlen => ?fits, fun bytes hlen => ?tooLarge, fun h bytes hstage => ?notFresh⟩
  case fits =>
    obtain ⟨t, ht, hframe, hinside, houtside⟩ :=
      State.memWriteBytes_ok (s := State.reset) (addr := 0) (by omega : 0 + bytes.length ≤ 256)
    refine ⟨t, ?_, fun k hk => by simpa using hinside k hk, fun k hk => houtside k (.inr (by omega)), hframe,
      State.memWriteBytes_wf ht reset_mem_wf⟩
    simp [hostLoad, hostConstruct, loadProgram, ht, not_lt.2 hlen]
  case tooLarge => simp [hostLoad, hostConstruct, loadProgram, hlen]
  case notFresh =>
    rw [hostLoad]
    cases hs : h.stage with
    | constructed => exact absurd hs hstage
    | loaded => rfl
    | started => rfl

/-- Settles O42: the placing changes neither the status nor the pc, and its bytes are what the fetch reads. -/
theorem placedWordIsRunNext : Obligations.PlacedWordIsRunNext := by
  intro s nbits w i hr hp hd
  have hnext : (s.withFetchWord nbits w).nextInstr = some i := (State.nextInstr_placeFetched _ _ _ hp).trans hd
  have hframe : s.withFetchWord nbits w = { s with mem := (s.withFetchWord nbits w).mem } :=
    State.placeFetched_frame _ _ _ hp
  have hrun : (s.withFetchWord nbits w).status = .running := by
    rw [hframe]
    exact hr
  exact ⟨step_of_nextInstr hrun hnext, hframe, fun _ ha => State.read_placeFetched _ _ _ hp ha⟩

end

/-! ### Text (`43_prn.md` R101, `30_encoding.md` R57) -/

namespace Sys2Proof.Machine

theorem digitChar_eq_natDigitChar : ∀ {d : Nat}, d < 10 → digitChar d = Nat.digitChar d := by decide

theorem toDigits_ten_of_lt {n : Nat} (h : n < 10) : Nat.toDigits 10 n = [digitChar n] := by
  rw [Nat.toDigits_of_lt_base h, digitChar_eq_natDigitChar h]

theorem toDigits_ten_of_le {n : Nat} (h : 10 ≤ n) :
    Nat.toDigits 10 n = Nat.toDigits 10 (n / 10) ++ [digitChar (n % 10)] := by
  rw [Nat.toDigits_of_base_le (by decide) h, digitChar_eq_natDigitChar (Nat.mod_lt n (by decide))]

/-- The numeral is the library's, with one digit more in each of its three cases. -/
theorem decimalOf_eq_toDigits (v : Byte) : decimalOf v = Nat.toDigits 10 v.toNat := by
  have hv : v.toNat < 256 := v.isLt
  simp only [decimalOf]
  split
  · next h1 => exact (toDigits_ten_of_lt h1).symm
  · split
    · next h1 h2 =>
      rw [toDigits_ten_of_le (not_lt.1 h1), toDigits_ten_of_lt (by omega)]
      rfl
    · next h1 h2 =>
      rw [toDigits_ten_of_le (not_lt.1 h1), toDigits_ten_of_le (by omega), toDigits_ten_of_lt (by omega),
        Nat.div_div_eq_div_mul]
      rfl

end Sys2Proof.Machine

section
open Sys2Proof Sys2Proof.Machine

/-- Settles O1: by evaluation of the decoder on each word. -/
theorem specWordsDecodeAsTheTableSays : Obligations.SpecWordsDecodeAsTheTableSays := by
  unfold Obligations.SpecWordsDecodeAsTheTableSays
  decide

/-- Settles O43: the numeral is that of the byte's value, which is `n` itself below 256. -/
theorem bytesRenderAsDecimalNumerals : Obligations.BytesRenderAsDecimalNumerals := by
  refine ⟨fun n hn => ?numeral, rfl, fun v rest => ?text⟩
  case numeral => rw [decimalOf_eq_toDigits, BitVec.toNat_ofNat, Nat.mod_eq_of_lt hn]
  case text => rw [textOf, List.append_assoc]; rfl

/-- Settles O44: by evaluation of the line reader on each line. -/
theorem programTextLinesRead : Obligations.ProgramTextLinesRead := by
  unfold Obligations.ProgramTextLinesRead
  decide

end
